-- ==== Sys2Proof/Word.lean ====
section
/-! DEFINITION. The words the ports carry and the values the block compares (spec 00_scope.md R8, 20_memory.md R63, R64). -/

namespace Sys2Proof

/-- A command word, a response's data, or ERRINFO: 32 bits (30_encoding.md R80, R81). -/
abbrev Word := BitVec 32

/-- The ARG field of a command word, bits 21 to 0 (30_encoding.md R80). -/
abbrev Arg := BitVec 22

/-- The SEL field of a command word, bits 26 to 22 (30_encoding.md R80). -/
abbrev Sel := BitVec 5

/-- One draw of the entropy source, 0 to 65535 (44_noise.md R171). -/
abbrev Draw := BitVec 16

/-- A symbol: a natural from 0 to 0x10FFFF, which the block only compares for equality (10_state.md R21). -/
abbrev Symbol := Fin 0x110000

/-- A bit sequence, its first bit first: BITS or a codeword (10_state.md R23, R28). -/
abbrev Bits := List Bool

end Sys2Proof
end

