-- ==== Sys2Proof/Syntax.lean ====
section
/-! DEFINITION. The 21 commands of spec/opcode_table.json (30_encoding.md R82, R84), and the reasons a word is no
command (30_encoding.md R85). -/

namespace Sys2Proof

/-- One constructor per row of spec/opcode_table.json, with the operands of 30_encoding.md R83. -/
inductive Instr where
  /-- NOP (40_control.md R100). -/
  | nop
  /-- CLEAR mask (40_control.md R101). -/
  | clear (mask : Sel)
  /-- PUSH.SYM sym (41_load.md R110). -/
  | pushSym (sym : Arg)
  /-- PUSH.BITS n, value (41_load.md R111); `n` is SEL + 1. -/
  | pushBits (n : Nat) (value : Arg)
  /-- BUILD (42_build.md R120). -/
  | build
  /-- ENCODE (43_codec.md R150). -/
  | encode
  /-- NOISE P (44_noise.md R170). -/
  | noise (p : Arg)
  /-- DECODE (43_codec.md R152). -/
  | decode
  /-- RD.REG r (45_read.md R180). -/
  | rdReg (r : Arg)
  /-- RD.SRC i (45_read.md R181). -/
  | rdSrc (i : Arg)
  /-- RD.BITS j (45_read.md R182). -/
  | rdBits (j : Arg)
  /-- RD.DST i (45_read.md R183). -/
  | rdDst (i : Arg)
  /-- RD.FSYM k (45_read.md R184). -/
  | rdFsym (k : Arg)
  /-- RD.FCNT k (45_read.md R185). -/
  | rdFcnt (k : Arg)
  /-- RD.CLEN k (45_read.md R186). -/
  | rdClen (k : Arg)
  /-- RD.CBITS k, j (45_read.md R187): `k` is ARG[13:0], `j` is ARG[21:14]. -/
  | rdCbits (k : BitVec 14) (j : BitVec 8)
  /-- RD.COF s (45_read.md R188). -/
  | rdCof (sym : Arg)
  /-- RD.NKIND x (45_read.md R189). -/
  | rdNkind (x : Arg)
  /-- RD.NW x (45_read.md R190). -/
  | rdNw (x : Arg)
  /-- RD.NL x (45_read.md R191). -/
  | rdNl (x : Arg)
  /-- RD.NR x (45_read.md R192). -/
  | rdNr (x : Arg)
deriving DecidableEq, Repr

/-- Why a word is no command: one name per clause of 30_encoding.md R85. The decoder answers with it; the block
raises ILLEGAL_COMMAND for each alike. -/
inductive Illegal where
  /-- Clause 1: OP is 0x09 or more. -/
  | reservedOpcode
  /-- Clause 2: NOP, BUILD, ENCODE or DECODE with SEL or ARG not 0. -/
  | fieldNotZero
  /-- Clause 3: CLEAR with ARG not 0. -/
  | clearArgNotZero
  /-- Clause 4: PUSH.SYM or NOISE with SEL not 0. -/
  | selNotZero
  /-- Clause 5: PUSH.BITS with SEL above 21. -/
  | tooManyBits
  /-- Clause 6: PUSH.BITS with a bit of ARG above the `n` bits set. -/
  | valueTooWide
  /-- Clause 7: READ with SEL 13 or more. -/
  | reservedSpace
deriving DecidableEq, Repr

end Sys2Proof
end

