-- ==== Sys2Proof/WellFormed.lean ====
section
/-! DEFINITION. Which terms of Instr are commands: those the assembler's forms admit (spec 30_encoding.md R83, R88). -/

namespace Sys2Proof

/-- The operand bounds that the operands' types do not already give: PUSH.BITS has `n` from 1 to 22 and `value`
below 2^n (30_encoding.md R83, R85 clauses 5 and 6, R88). Every other operand fits its field by its type. -/
def wellFormed : Instr → Bool
  | .pushBits n value => decide (1 ≤ n) && decide (n ≤ 22) && decide (value.toNat < 2 ^ n)
  | .nop | .clear _ | .pushSym _ | .build | .encode | .noise _ | .decode => true
  | .rdReg _ | .rdSrc _ | .rdBits _ | .rdDst _ | .rdFsym _ | .rdFcnt _ | .rdClen _ | .rdCbits _ _ => true
  | .rdCof _ | .rdNkind _ | .rdNw _ | .rdNl _ | .rdNr _ => true

/-- `i` is a command that a word can carry. -/
abbrev WellFormed (i : Instr) : Prop := wellFormed i = true

end Sys2Proof
end

