-- ==== Sys2Proof/Decode.lean ====
section
/-! DEFINITION. The decoder, total on every 32-bit word, and the encoder after it, both from the tables of spec
30_encoding.md R80, R82 to R85. -/

namespace Sys2Proof

/-- OP, bits 31 to 27 of a command word (30_encoding.md R80). -/
def opField (w : Word) : Sel := w.extractLsb' 27 5

/-- SEL, bits 26 to 22 of a command word (30_encoding.md R80). -/
def selField (w : Word) : Sel := w.extractLsb' 22 5

/-- ARG, bits 21 to 0 of a command word (30_encoding.md R80). -/
def argField (w : Word) : Arg := w.extractLsb' 0 22

/-- The command `i` when `ok` holds, else the reason `e`. -/
def legalIf (ok : Bool) (e : Illegal) (i : Instr) : Except Illegal Instr :=
  if ok then .ok i else .error e

/-- The READ commands, by SEL (30_encoding.md R84). -/
def decodeRead (sel : Nat) (arg : Arg) : Except Illegal Instr :=
  match sel with
  | 0 => .ok (.rdReg arg)
  | 1 => .ok (.rdSrc arg)
  | 2 => .ok (.rdBits arg)
  | 3 => .ok (.rdDst arg)
  | 4 => .ok (.rdFsym arg)
  | 5 => .ok (.rdFcnt arg)
  | 6 => .ok (.rdClen arg)
  | 7 => .ok (.rdCbits (arg.extractLsb' 0 14) (arg.extractLsb' 14 8))
  | 8 => .ok (.rdCof arg)
  | 9 => .ok (.rdNkind arg)
  | 10 => .ok (.rdNw arg)
  | 11 => .ok (.rdNl arg)
  | 12 => .ok (.rdNr arg)
  | _ => .error .reservedSpace

/-- PUSH.BITS: `n` is SEL + 1, and the two checks of 30_encoding.md R85 clauses 5 and 6. -/
def decodePushBits (sel : Sel) (arg : Arg) : Except Illegal Instr :=
  if 21 < sel.toNat then .error .tooManyBits
  else if 2 ^ (sel.toNat + 1) ≤ arg.toNat then .error .valueTooWide
  else .ok (.pushBits (sel.toNat + 1) arg)

/-- The command a field triple stands for (30_encoding.md R82, R83), or the reason it is illegal (R85). -/
def decodeFields (op sel : Sel) (arg : Arg) : Except Illegal Instr :=
  match op.toNat with
  | 0 => legalIf (sel == 0 && arg == 0) .fieldNotZero .nop
  | 1 => legalIf (arg == 0) .clearArgNotZero (.clear sel)
  | 2 => legalIf (sel == 0) .selNotZero (.pushSym arg)
  | 3 => decodePushBits sel arg
  | 4 => legalIf (sel == 0 && arg == 0) .fieldNotZero .build
  | 5 => legalIf (sel == 0 && arg == 0) .fieldNotZero .encode
  | 6 => legalIf (sel == 0) .selNotZero (.noise arg)
  | 7 => legalIf (sel == 0 && arg == 0) .fieldNotZero .decode
  | 8 => decodeRead sel.toNat arg
  | _ => .error .reservedOpcode

/-- The decoder: the command of a word, or the reason it is illegal. A decoder always reads exactly one 32-bit word
(30_encoding.md R80). -/
def decode (w : Word) : Except Illegal Instr :=
  decodeFields (opField w) (selField w) (argField w)

/-- `OP << 27 | SEL << 22 | ARG` (30_encoding.md R88). -/
def packFields (op : Nat) (sel : Sel) (arg : Arg) : Word :=
  (BitVec.ofNat 5 op ++ sel ++ arg : BitVec (5 + 5 + 22))

/-- The word of a well-formed command (30_encoding.md R82 to R84, R88). -/
def encode : Instr → Word
  | .nop => packFields 0 0 0
  | .clear mask => packFields 1 mask 0
  | .pushSym sym => packFields 2 0 sym
  | .pushBits n value => packFields 3 (BitVec.ofNat 5 (n - 1)) value
  | .build => packFields 4 0 0
  | .encode => packFields 5 0 0
  | .noise p => packFields 6 0 p
  | .decode => packFields 7 0 0
  | .rdReg r => packFields 8 0 r
  | .rdSrc i => packFields 8 1 i
  | .rdBits j => packFields 8 2 j
  | .rdDst i => packFields 8 3 i
  | .rdFsym k => packFields 8 4 k
  | .rdFcnt k => packFields 8 5 k
  | .rdClen k => packFields 8 6 k
  | .rdCbits k j => packFields 8 7 (j ++ k : BitVec (8 + 14))
  | .rdCof sym => packFields 8 8 sym
  | .rdNkind x => packFields 8 9 x
  | .rdNw x => packFields 8 10 x
  | .rdNl x => packFields 8 11 x
  | .rdNr x => packFields 8 12 x

/-- A word is illegal: the seven clauses of 30_encoding.md R85, written from the rule and not from the decoder. -/
def IllegalWord (w : Word) : Prop :=
  let op := (opField w).toNat
  let sel := (selField w).toNat
  let arg := (argField w).toNat
  9 ≤ op ∨
  ((op = 0 ∨ op = 4 ∨ op = 5 ∨ op = 7) ∧ (sel ≠ 0 ∨ arg ≠ 0)) ∨
  (op = 1 ∧ arg ≠ 0) ∨
  ((op = 2 ∨ op = 6) ∧ sel ≠ 0) ∨
  (op = 3 ∧ 21 < sel) ∨
  (op = 3 ∧ sel ≤ 21 ∧ 2 ^ (sel + 1) ≤ arg) ∨
  (op = 8 ∧ 13 ≤ sel)

/-- The host's numbering: a table row's bits are one number, bit 0 the least significant bit of the command word
(every row of the table has 32 bits, 30_encoding.md R80); the bits above `nbits` are 0. -/
def tableWord (nbits w : Nat) : Word := BitVec.ofNat 32 (w % 2 ^ min nbits 32)

/-- The command this decoder reads from a table word; none where it refuses. -/
def decodeTableWord (nbits w : Nat) : Option Instr := (decode (tableWord nbits w)).toOption

end Sys2Proof
end

