-- ==== Sys2Proof/Config.lean ====
section
/-! DEFINITION. What an implementation fixes (spec 00_scope.md R4, R5) and the one free value, the draws of the
entropy source (44_noise.md R171). -/

namespace Sys2Proof

/-- The implementation parameters of 00_scope.md R4 but for ENTROPY, which is `Machine.Entropy`. -/
structure Params where
  /-- `N_SYM`: the most distinct symbols one frequency table holds. -/
  nSym : Nat
  /-- `SRC_CAP`: the capacity of SRC, in symbols. -/
  srcCap : Nat
  /-- `BIT_CAP`: the capacity of BITS, in bits. -/
  bitCap : Nat
deriving DecidableEq, Repr

/-- The legal range of each parameter (00_scope.md R4). -/
structure Params.Legal (p : Params) : Prop where
  nSym_range   : 2 ≤ p.nSym ∧ p.nSym ≤ 8192
  srcCap_range : 1 ≤ p.srcCap ∧ p.srcCap ≤ 2 ^ 20
  bitCap_range : 32 ≤ p.bitCap ∧ p.bitCap ≤ 2 ^ 22 ∧ p.bitCap % 32 = 0

/-- The default of each parameter (00_scope.md R4); that the block after reset has these sizes is a DESIGN CHOICE
(log 1), safe: every statement is about every legal `Params`. -/
def Params.default : Params := { nSym := 256, srcCap := 4096, bitCap := 65536 }

/-- `DST_CAP`, the capacity of DST in symbols (00_scope.md R5). -/
def Params.dstCap (p : Params) : Nat := p.bitCap

/-- `NODE_CAP`, the capacity of the tree arena in nodes (00_scope.md R5). -/
def Params.nodeCap (p : Params) : Nat := 2 * p.nSym - 1

/-- `LMAX`, the longest codeword (00_scope.md R5). -/
def Params.lmax (p : Params) : Nat := p.nSym - 1

/-- `BIT_WORDS`, the number of words RD.BITS can address (00_scope.md R5). -/
def Params.bitWords (p : Params) : Nat := p.bitCap / 32

/-- `WMAX`, the largest count or weight (00_scope.md R5). -/
def Params.wmax (p : Params) : Nat := p.srcCap

/-- FREE VALUE: the draw number `k` of the entropy source, counted over all draws the block has taken, where a run
does not fix it (44_noise.md R171: a free input; log 3). It has no body, so nothing can be proved of its value. -/
opaque Config.freeDraw : Nat → Draw

end Sys2Proof
end

