-- ==== Sys2Proof/Machine/State.lean ====
section
/-! DEFINITION. The state of the block (spec 10_state.md R20) as plain data, the model's own fields beside it, the
reasons a step can stop, and the state after reset (R41). -/

namespace Sys2Proof.Machine

/-- One entry of the frequency table (10_state.md R25). -/
structure Entry where
  /-- `sym_k`. -/
  sym : Symbol
  /-- `cnt_k`. -/
  cnt : Nat
deriving DecidableEq, Repr

/-- One node of the tree arena (10_state.md R26). -/
inductive Node where
  /-- `Leaf(sym, w)`. -/
  | leaf (sym : Symbol) (w : Nat)
  /-- `Internal(w, l, r)`, with arena indices `l` and `r`. -/
  | internal (w l r : Nat)
deriving DecidableEq, Repr

/-- One response `(code, data)` (30_encoding.md R87). -/
structure Response where
  /-- `rsp_code`, 4 bits. -/
  code : BitVec 4
  /-- `rsp_data`, 32 bits. -/
  data : Word
deriving DecidableEq, Repr

/-- The eight errors, in the order of their codes (60_exceptions.md R221). -/
inductive Error where
  | emptyInput
  | unknownSymbol
  | invalidProbability
  | capacity
  | tooManySymbols
  | illegalCommand
  | badIndex
  | invalidSymbol
deriving DecidableEq, Repr

/-- The MODEL's view of the entropy source (44_noise.md R171, 70_reset_and_hazards.md R259; log 3, log 4). -/
structure Entropy where
  /-- The next draws, where a run fixes them ("a test makes the result exact by fixing the draws", R171). -/
  fixed : List Draw
  /-- How many draws the block has taken; the draw number `k` that no run fixes is `Config.freeDraw k`. -/
  taken : Nat
  /-- How many more draws the source offers before it stops (R259); none when it never stops. -/
  left : Option Nat
deriving DecidableEq, Repr

/-- What the host or the entropy source does next (00_scope.md R6, 30_encoding.md R81; log 2). -/
inductive Input where
  /-- The host offers a command word. -/
  | offer (w : Word)
  /-- The host takes the response, if one is offered. -/
  | take
  /-- The host asserts reset, whatever the block is about to do (70_reset_and_hazards.md R250). -/
  | reset
  /-- The entropy source offers `k` more draws (70_reset_and_hazards.md R259). -/
  | draws (k : Nat)
  /-- The host and the entropy source do nothing, and reset is not asserted. -/
  | idle
deriving DecidableEq, Repr

/-- The state. The first ten fields are exactly the components of 10_state.md R20; the registers of R33 are views of
them (Machine/Flags.lean). The last five are the MODEL's own (log 1 to log 4). -/
structure State where
  /-- `SRC` (R22). -/
  src : List Symbol
  /-- `BITS` (R23). -/
  bits : Bits
  /-- `DST` (R24). -/
  dst : List Symbol
  /-- `FT` (R25). -/
  ft : List Entry
  /-- `NODE` (R26). -/
  node : List Node
  /-- `CODE` (R28). -/
  code : List Bits
  /-- `TAIL` (R30). -/
  tail : Nat
  /-- `ERRCODE` (R31). -/
  errcode : BitVec 4
  /-- `ERRINFO` (R31). -/
  errinfo : Word
  /-- `PENDING` (R37). -/
  pending : Option Response
  /-- The parameters of 00_scope.md R4, which no step changes. -/
  params : Params
  /-- The P of an accepted NOISE that still waits for its draws (70_reset_and_hazards.md R259). -/
  waiting : Option Arg
  /-- The entropy source. -/
  entropy : Entropy
  /-- The words the host holds on the command port, not yet accepted (R254), the first to be accepted first. -/
  offered : List Word
  /-- What the host and the entropy source do next, in order. -/
  inputs : List Input
deriving DecidableEq, Repr

/-- Why a step stops. The spec gives the block no stop: its errors are responses (60_exceptions.md R220). -/
inductive Fault where
  /-- Raised by ENCODE, RD.CLEN and RD.CBITS where the frequency table has an entry and the code table has no codeword
  for it. 10_state.md R35 says no run reaches such a state, and the spec gives no effect there (log 5). Safe: the model
  stops, and from a state that meets the invariant it never does. -/
  | codewordMissing
deriving DecidableEq, Repr

/-- Why an instruction has no meaning. -/
inductive Refusal where
  /-- Raised by an arm of `exec` whose instruction is not modelled yet; no arm of this model does. Safe. -/
  | notModelled (mnemonic : String)
deriving DecidableEq, Repr

/-- The block right after reset (10_state.md R41, every component's value is the spec's). The model's own fields: the
default parameters (DESIGN CHOICE, log 1, safe), no NOISE waiting (70_reset_and_hazards.md R250), an entropy source
that never stops and whose draws no run fixes, and a host that offers nothing yet (DESIGN CHOICE, log 2 to log 4). -/
def State.reset : State where
  src := []
  bits := []
  dst := []
  ft := []
  node := []
  code := []
  tail := 0
  errcode := 0
  errinfo := 0
  pending := none
  params := Params.default
  waiting := none
  entropy := { fixed := [], taken := 0, left := none }
  offered := []
  inputs := []

end Sys2Proof.Machine
end

