-- ==== Sys2Proof/Machine/Operands.lean ====
section
/-! DEFINITION. Operands and values between fields, sequences and 32-bit words: every operand form of spec
30_encoding.md R83 and the packing of 20_memory.md R61 to R63, and the words of a node
(45_read.md R189 to R192). -/

namespace Sys2Proof.Machine

/-- A natural in a 32-bit word; the block's naturals are below 2^32 (00_scope.md R5, R10). -/
def natWord (n : Nat) : Word := BitVec.ofNat 32 n

/-- `zext_32` of an ARG (00_scope.md R8). -/
def argWord (a : Arg) : Word := a.setWidth 32

/-- `zext_32` of a symbol (20_memory.md R63). -/
def symbolWord (s : Symbol) : Word := natWord s.val

/-- The symbol a 22-bit value is; none above 0x10FFFF (20_memory.md R63, 41_load.md R110). -/
def symbolOf (a : Arg) : Option Symbol :=
  if h : a.toNat < 0x110000 then some ⟨a.toNat, h⟩ else none

/-- The bits PUSH.BITS appends: `value[n-1]`, ..., `value[0]` (30_encoding.md R83). -/
def pushedBits (n : Nat) (value : Arg) : Bits :=
  (List.range n).map fun i => value.getLsbD (n - 1 - i)

/-- ARG of RD.CBITS, both fields: `j` above `k` (30_encoding.md R83). -/
def cbitsArg (k : BitVec 14) (j : BitVec 8) : Arg := (j ++ k : BitVec (8 + 14))

/-- Bit `i` of a stream as a number, 0 beyond its end (20_memory.md R61, R62). -/
def streamBit (b : Bits) (i : Nat) : Nat := (b.getD i false).toNat

/-- `Word(j)`: bits 32j to 32j + 31 of a stream, the first in bit 31 (20_memory.md R61 for BITS, R62 for a codeword). -/
def packedWord (b : Bits) (j : Nat) : Word :=
  natWord (((List.range 32).map fun t => streamBit b (32 * j + t) <<< (31 - t)).sum)

/-- The highest probability, 0x10000 (44_noise.md R170). -/
def maxProbability : Nat := 0x10000

/-- What RD.NL and RD.NR answer for a leaf (45_read.md R191, R192). -/
def noChild : Word := 0xFFFFFFFF

/-- The leaf flag of RD.NKIND, bit 31 (45_read.md R189). -/
def leafFlag : Word := 0x80000000

/-- What RD.NKIND answers for a node (45_read.md R189). -/
def Node.kindWord : Node → Word
  | .leaf c _ => leafFlag ||| symbolWord c
  | .internal _ _ _ => 0

/-- `w(node)` (10_state.md R26). -/
def Node.weight : Node → Nat
  | .leaf _ w => w
  | .internal w _ _ => w

/-- What RD.NL answers for a node (45_read.md R191). -/
def Node.leftWord : Node → Word
  | .leaf _ _ => noChild
  | .internal _ l _ => natWord l

/-- What RD.NR answers for a node (45_read.md R192). -/
def Node.rightWord : Node → Word
  | .leaf _ _ => noChild
  | .internal _ _ r => natWord r

end Sys2Proof.Machine
end

