-- ==== Sys2Proof/Machine/Ops.lean ====
section
/-! DEFINITION. The shared operations of the meanings: how a command ends (`respond`, and `raise` for an error: the
whole of error entry, spec 60_exceptions.md R220), the groups CLEAR empties (40_control.md R101), reset
(10_state.md R41), and the draws of the entropy source (44_noise.md R171). -/

namespace Sys2Proof.Machine

/-- `rsp_code` of an error (60_exceptions.md R221). -/
def Error.code : Error → BitVec 4
  | .emptyInput => 1
  | .unknownSymbol => 2
  | .invalidProbability => 3
  | .capacity => 4
  | .tooManySymbols => 5
  | .illegalCommand => 6
  | .badIndex => 7
  | .invalidSymbol => 8

/-- `respond(v)`: the command ends with code 0 (OK) and data `v` (00_scope.md R9, 30_encoding.md R87). -/
def respond (v : Word) (s : State) : State := { s with pending := some { code := 0, data := v } }

/-- `raise e(info)`: error entry, exactly the three writes of 60_exceptions.md R220. There is no return from an error
(R225): the next command runs as any other. -/
def raise (e : Error) (info : Word) (s : State) : State :=
  { s with errcode := e.code, errinfo := info, pending := some { code := e.code, data := 0 } }

/-- The command ended successfully. -/
def done (v : Word) (s : State) : Host.Outcome State Fault Refusal := .next (respond v s)

/-- The command raised an error: a next state (60_exceptions.md R220). -/
def fail (e : Error) (info : Word) (s : State) : Host.Outcome State Fault Refusal := .next (raise e info s)

/-- A read: the value where the index names an element, else `e(info)` (20_memory.md R60, R67). -/
def answer (v : Option Word) (e : Error) (info : Word) (s : State) : Host.Outcome State Fault Refusal :=
  match v with
  | some w => done w s
  | none => fail e info s

/-- CLEAR's group of mask bit 0: SRC. -/
def clearSrc (s : State) : State := { s with src := [] }

/-- CLEAR's group of mask bit 1: BITS. -/
def clearBits (s : State) : State := { s with bits := [] }

/-- CLEAR's group of mask bit 2: DST and TAIL. -/
def clearDst (s : State) : State := { s with dst := [], tail := 0 }

/-- CLEAR's group of mask bit 3: FT, NODE and CODE. -/
def clearTable (s : State) : State := { s with ft := [], node := [], code := [] }

/-- CLEAR's group of mask bit 4: the error record. -/
def clearError (s : State) : State := { s with errcode := 0, errinfo := 0 }

/-- `f` applied when `b` holds. -/
def applyIf (b : Bool) (f : State → State) (s : State) : State := if b then f s else s

/-- Every group the mask selects is emptied (40_control.md R101). -/
def clearGroups (mask : Sel) (s : State) : State :=
  applyIf (mask.getLsbD 4) clearError <| applyIf (mask.getLsbD 3) clearTable <|
    applyIf (mask.getLsbD 2) clearDst <| applyIf (mask.getLsbD 1) clearBits <|
      applyIf (mask.getLsbD 0) clearSrc s

/-- The source has `n` more draws to offer (70_reset_and_hazards.md R259). -/
def Entropy.offers (e : Entropy) (n : Nat) : Bool := e.left.all (fun m => decide (n ≤ m))

/-- The draw in place `i` from now: the one a run fixes, else the free value of its number (44_noise.md R171). -/
def Entropy.draw (e : Entropy) (i : Nat) : Draw := e.fixed.getD i (Config.freeDraw (e.taken + i))

/-- The next `n` draws, in the order they are taken. -/
def Entropy.next (e : Entropy) (n : Nat) : List Draw := (List.range n).map e.draw

/-- The source after `n` draws were taken. -/
def Entropy.advance (e : Entropy) (n : Nat) : Entropy :=
  { fixed := e.fixed.drop n, taken := e.taken + n, left := e.left.map (· - n) }

/-- The source after it offers `k` more draws; one that never stops stays so. -/
def Entropy.supply (e : Entropy) (k : Nat) : Entropy := { e with left := e.left.map (· + k) }

/-- How many draws a NOISE over `n` bits has taken when a reset abandons it: every draw offered so far, and at most one
for each bit (44_noise.md R171; log 4). -/
def Entropy.lost (e : Entropy) (n : Nat) : Nat := e.left.elim n (min n)

/-- The source after a NOISE over `n` bits was abandoned: the draws it took are lost (70_reset_and_hazards.md R251). -/
def Entropy.abandon (e : Entropy) (n : Nat) : Entropy := e.advance (e.lost n)

/-- Reset: every component of the spec's state takes its reset value (10_state.md R41, 70_reset_and_hazards.md R250),
and a NOISE that waited is abandoned (R251). The parameters stay, and so do the host and the entropy source, which
are outside the block. -/
def resetBlock (s : State) : State :=
  { State.reset with
    params := s.params
    entropy := if s.waiting.isSome then s.entropy.abandon s.bits.length else s.entropy
    offered := s.offered
    inputs := s.inputs }

end Sys2Proof.Machine
end

