-- ==== Sys2Proof/Machine/Build.lean ====
section
/-! DEFINITION. BUILD (spec 42_build.md): the frequency table (R121), the priority queue and the tree (R122, R123),
the code generator (R124, R125), and the command (R120). -/

namespace Sys2Proof.Machine

/-- Adds 1 to the count of the first entry of symbol `c` (42_build.md R121). -/
def countSymbol (c : Symbol) : List Entry → List Entry
  | [] => []
  | e :: rest => if e.sym = c then { e with cnt := e.cnt + 1 } :: rest else e :: countSymbol c rest

/-- Some entry of the table is for symbol `c`. -/
def hasEntry (c : Symbol) (ft : List Entry) : Bool := ft.any fun e => e.sym == c

/-- The loop of `FreqTable` (42_build.md R121) from SRC index `i` on, with the table so far; the error is the index at
which the table is full. -/
def freqLoop (nSym : Nat) (ft : List Entry) (i : Nat) : List Symbol → Except Nat (List Entry)
  | [] => .ok ft
  | c :: rest =>
    if hasEntry c ft then freqLoop nSym (countSymbol c ft) (i + 1) rest
    else if ft.length = nSym then .error i
    else freqLoop nSym (ft ++ [{ sym := c, cnt := 1 }]) (i + 1) rest

/-- `FreqTable(src)` (42_build.md R121). -/
def freqTable (nSym : Nat) (src : List Symbol) : Except Nat (List Entry) := freqLoop nSym [] 0 src

/-- A member of the priority queue: a node index with its key, `(w(node[x]), x)` (42_build.md R122). -/
abbrev Key := Nat × Nat

/-- The lexicographic order of keys (00_scope.md R8). -/
def Key.before (a b : Key) : Bool := decide (a.1 < b.1) || (decide (a.1 = b.1) && decide (a.2 < b.2))

/-- The least of a key and a list of keys. -/
def leastKey (m : Key) : List Key → Key
  | [] => m
  | k :: rest => leastKey (if Key.before k m then k else m) rest

/-- `PopMin(Q)`: the member with the least key, and the queue without it (42_build.md R122). -/
def popMin : List Key → Option (Key × List Key)
  | [] => none
  | k :: rest => some (leastKey k rest, (k :: rest).erase (leastKey k rest))

/-- The loop of `Tree` (42_build.md R123): while the queue has two members, the two least become the children, the
first on the left, of a new node, which enters the queue. `fuel` bounds the rounds; the loop runs `n - 1` times. -/
def mergeLoop : (fuel : Nat) → List Node → List Key → List Node × List Key
  | 0, node, q => (node, q)
  | fuel + 1, node, q =>
    match popMin q with
    | none => (node, q)
    | some (a, q₁) =>
      match popMin q₁ with
      | none => (node, q)
      | some (b, q₂) =>
        mergeLoop fuel (node ++ [.internal (a.1 + b.1) a.2 b.2]) (q₂ ++ [(a.1 + b.1, node.length)])

/-- The leaves of `Tree(ft)`: `Leaf(ft[k].sym, ft[k].cnt)` (42_build.md R123). -/
def leavesOf (ft : List Entry) : List Node := ft.map fun e => .leaf e.sym e.cnt

/-- The first queue of `Tree(ft)`: every leaf, with its key (42_build.md R122, R123). -/
def leafKeys (ft : List Entry) : List Key := ft.zipIdx.map fun e => (e.1.cnt, e.2)

/-- `Tree(ft)`: the tree arena (42_build.md R123). -/
def tree (ft : List Entry) : List Node := (mergeLoop ft.length (leavesOf ft) (leafKeys ft)).1

/-- The root of a tree arena: the node created last (10_state.md R27, 42_build.md R123). -/
def rootOf (node : List Node) : Nat := node.length - 1

/-- `Walk(x, p)` (42_build.md R125) over the code table so far: at a leaf the bits collected become its codeword; at an
internal node the left subtree is walked with bit 0, then the right one with bit 1. `fuel` bounds the depth. -/
def walk (node : List Node) : (fuel x : Nat) → (p : Bits) → (code : List Bits) → List Bits
  | 0, _, _, code => code
  | fuel + 1, x, p, code =>
    match node[x]? with
    | none => code
    | some (.leaf _ _) => code.set x p
    | some (.internal _ l r) => walk node fuel r (p ++ [true]) (walk node fuel l (p ++ [false]) code)

/-- `Codes(ft, node, root)` (42_build.md R125); the only symbol of a table of one gets the codeword "0" (R124). -/
def codes (ft : List Entry) (node : List Node) (root : Nat) : List Bits :=
  if ft.length = 1 then [[false]]
  else walk node node.length root [] (List.replicate ft.length [])

/-- BUILD (42_build.md R120): the table is written whole, after every check (R126). -/
def execBuild (s : State) : Host.Outcome State Fault Refusal :=
  if s.src = [] then fail .emptyInput 0 s
  else
    match freqTable s.params.nSym s.src with
    | .error i => fail .tooManySymbols (natWord i) s
    | .ok ft =>
      done (natWord ft.length)
        { s with ft := ft, node := tree ft, code := codes ft (tree ft) (rootOf (tree ft)) }

end Sys2Proof.Machine
end

