-- ==== Sys2Proof/Machine/Codec.lean ====
section
/-! DEFINITION. The codec: table lookup (spec 43_codec.md R151), ENCODE (R150) and DECODE (R152). -/

namespace Sys2Proof.Machine

/-- `Entry(s)`: the index of the entry of a symbol (43_codec.md R151). -/
def entryOf (ft : List Entry) (c : Symbol) : Option Nat := ft.findIdx? fun e => e.sym == c

/-- The codeword of a symbol, `CODE[Entry(s)]` (43_codec.md R150). -/
def codewordOf (ft : List Entry) (code : List Bits) (c : Symbol) : Option Bits :=
  (entryOf ft c).bind fun k => code[k]?

/-- `Rev(c)`: the symbol whose codeword a candidate is (43_codec.md R151). -/
def rev (ft : List Entry) (code : List Bits) (cand : Bits) : Option Symbol :=
  ((ft.zip code).find? fun e => e.2 == cand).map fun e => e.1.sym

/-- How ENCODE's second loop ends. -/
inductive Encoded where
  /-- Every codeword fits. -/
  | done (out : Bits)
  /-- The codeword of the symbol at this SRC index does not fit. -/
  | full (i : Nat)
  /-- The table holds no codeword for an entry (log 5). -/
  | missing
deriving DecidableEq, Repr

/-- ENCODE's second loop (43_codec.md R150) from SRC index `i` on, with the output so far. -/
def encodeLoop (bitCap : Nat) (word : Symbol → Option Bits) (out : Bits) (i : Nat) : List Symbol → Encoded
  | [] => .done out
  | c :: rest =>
    match word c with
    | none => .missing
    | some b =>
      if bitCap < out.length + b.length then .full i
      else encodeLoop bitCap word (out ++ b) (i + 1) rest

/-- ENCODE's first loop: the least SRC index whose symbol has no entry (43_codec.md R150). -/
def firstUnknown (ft : List Entry) (src : List Symbol) : Option Nat :=
  src.findIdx? fun c => (entryOf ft c).isNone

/-- ENCODE (43_codec.md R150). -/
def execEncode (s : State) : Host.Outcome State Fault Refusal :=
  match firstUnknown s.ft s.src with
  | some i => fail .unknownSymbol (natWord i) s
  | none =>
    match encodeLoop s.params.bitCap (codewordOf s.ft s.code) [] 0 s.src with
    | .full i => fail .capacity (natWord i) s
    | .done out => done (natWord out.length) { s with bits := out }
    | .missing => .fault .codewordMissing

/-- DECODE's loop (43_codec.md R152): the symbols so far and the candidate, over the remaining bits. -/
def decodeLoop (lookup : Bits → Option Symbol) (out : List Symbol) (cand : Bits) : Bits → List Symbol × Bits
  | [] => (out, cand)
  | b :: rest =>
    match lookup (cand ++ [b]) with
    | some c => decodeLoop lookup (out ++ [c]) [] rest
    | none => decodeLoop lookup out (cand ++ [b]) rest

/-- What DECODE makes of a bit sequence: the symbols, and the candidate left at the end (43_codec.md R152). -/
def decodeBits (ft : List Entry) (code : List Bits) (b : Bits) : List Symbol × Bits :=
  decodeLoop (rev ft code) [] [] b

/-- DECODE (43_codec.md R152). -/
def execDecode (s : State) : Host.Outcome State Fault Refusal :=
  let r := decodeBits s.ft s.code s.bits
  done (natWord r.1.length) { s with dst := r.1, tail := r.2.length }

end Sys2Proof.Machine
end

