-- ==== Sys2Proof/Machine/Control.lean ====
section
/-! DEFINITION. The control commands NOP and CLEAR (spec 40_control.md). -/

namespace Sys2Proof.Machine

/-- NOP (40_control.md R100). -/
def execNop (s : State) : Host.Outcome State Fault Refusal := done 0 s

/-- CLEAR mask (40_control.md R101). -/
def execClear (mask : Sel) (s : State) : Host.Outcome State Fault Refusal :=
  done 0 (clearGroups mask s)

end Sys2Proof.Machine
end

