-- ==== Sys2Proof/Machine/Load.lean ====
section
/-! DEFINITION. The load commands PUSH.SYM and PUSH.BITS (spec 41_load.md). -/

namespace Sys2Proof.Machine

/-- PUSH.SYM sym (41_load.md R110). -/
def execPushSym (sym : Arg) (s : State) : Host.Outcome State Fault Refusal :=
  match symbolOf sym with
  | none => fail .invalidSymbol (argWord sym) s
  | some c =>
    if s.src.length = s.params.srcCap then fail .capacity (natWord s.src.length) s
    else done (natWord (s.src ++ [c]).length) { s with src := s.src ++ [c] }

/-- PUSH.BITS n, value (41_load.md R111). -/
def execPushBits (n : Nat) (value : Arg) (s : State) : Host.Outcome State Fault Refusal :=
  if s.params.bitCap < s.bits.length + n then fail .capacity (natWord s.bits.length) s
  else
    done (natWord (s.bits ++ pushedBits n value).length) { s with bits := s.bits ++ pushedBits n value }

end Sys2Proof.Machine
end

