-- ==== Sys2Proof/Machine/Noise.lean ====
section
/-! DEFINITION. NOISE (spec 44_noise.md R170). -/

namespace Sys2Proof.Machine

/-- The loop of NOISE (44_noise.md R170) over the bits and their draws: the bits after it, and how many it inverted. -/
def noiseLoop (p : Nat) : Bits → List Draw → Bits × Nat
  | b :: bits, r :: draws =>
    let rest := noiseLoop p bits draws
    if r.toNat < p then ((!b) :: rest.1, rest.2 + 1) else (b :: rest.1, rest.2)
  | bits, _ => (bits, 0)

/-- NOISE P (44_noise.md R170). Where the source offers fewer draws than BITS has bits, the command waits: it has no
response yet, and the block accepts no other (70_reset_and_hazards.md R259; log 4). -/
def execNoise (p : Arg) (s : State) : Host.Outcome State Fault Refusal :=
  if maxProbability < p.toNat then fail .invalidProbability (argWord p) s
  else if s.entropy.offers s.bits.length then
    let r := noiseLoop p.toNat s.bits (s.entropy.next s.bits.length)
    done (natWord r.2) { s with bits := r.1, entropy := s.entropy.advance s.bits.length }
  else .next { s with waiting := some p }

end Sys2Proof.Machine
end

