-- ==== Sys2Proof/Machine/Flags.lean ====
section
/-! DEFINITION. The views of the state: the flags of STATUS, the summaries of the table, the 16 registers and the
output ports (spec 10_state.md R27, R29, R32, R33; 30_encoding.md R81). None is storage of its own (R20). -/

namespace Sys2Proof.Machine

/-- `NDIST = |FT|` (10_state.md R25). -/
def State.ndist (s : State) : Nat := s.ft.length

/-- `NNODES = |NODE|` (10_state.md R27). -/
def State.nnodes (s : State) : Nat := s.node.length

/-- `ROOT`: the node created last, 0 when there is none (10_state.md R27). -/
def State.root (s : State) : Nat := s.node.length - 1

/-- The sum of the counts of a frequency table. -/
def totalCount (ft : List Entry) : Nat := (ft.map Entry.cnt).sum

/-- `TOTAL` (10_state.md R29). -/
def State.total (s : State) : Nat := totalCount s.ft

/-- `MAXLEN`: the largest codeword length, 0 when there is none (10_state.md R29). -/
def State.maxlen (s : State) : Nat := (s.code.map List.length).foldr max 0

/-- `STATUS.BUILT`, bit 0: a code table exists (10_state.md R32). -/
def State.built (s : State) : Bool := decide (1 ≤ s.ndist)

/-- `STATUS.ERR`, bit 1: an error is recorded (10_state.md R32). -/
def State.err (s : State) : Bool := s.errcode != 0

/-- `STATUS` (10_state.md R32). -/
def State.status (s : State) : Word := natWord (2 * s.err.toNat + s.built.toNat)

/-- The ID register, "HUF1" (00_scope.md R1). -/
def idValue : Word := 0x48554631

/-- `RegValue(r)`: the register map (10_state.md R33); none for a number that is no register. -/
def regValue (s : State) : Nat → Option Word
  | 0 => some idValue
  | 1 => some s.status
  | 2 => some (s.errcode.setWidth 32)
  | 3 => some s.errinfo
  | 4 => some (natWord s.src.length)
  | 5 => some (natWord s.bits.length)
  | 6 => some (natWord s.dst.length)
  | 7 => some (natWord s.ndist)
  | 8 => some (natWord s.nnodes)
  | 9 => some (natWord s.root)
  | 10 => some (natWord s.total)
  | 11 => some (natWord s.maxlen)
  | 12 => some (natWord s.tail)
  | 13 => some (natWord s.params.nSym)
  | 14 => some (natWord s.params.srcCap)
  | 15 => some (natWord s.params.bitCap)
  | _ => none

/-- `rst_n` is low: the host's next event is reset (70_reset_and_hazards.md R250). -/
def State.resetAsserted (s : State) : Bool :=
  match s.inputs with
  | .reset :: _ => true
  | .offer _ :: _ | .take :: _ | .draws _ :: _ | .idle :: _ | [] => false

/-- `cmd_ready` between two steps: PENDING is none and no command is executing (30_encoding.md R81), and reset is not
asserted (70_reset_and_hazards.md R250). -/
def State.cmdReady (s : State) : Bool := !s.resetAsserted && s.pending.isNone && s.waiting.isNone

/-- `rsp_valid` (30_encoding.md R81, 70_reset_and_hazards.md R250); `rsp_code` and `rsp_data` are the fields of
`pending`. -/
def State.rspValid (s : State) : Bool := !s.resetAsserted && s.pending.isSome

/-- `rnd_ready` between two steps: a NOISE waits for its next draw (30_encoding.md R81, 70_reset_and_hazards.md R250). -/
def State.rndReady (s : State) : Bool := !s.resetAsserted && s.waiting.isSome

end Sys2Proof.Machine
end

