-- ==== Sys2Proof/Machine/Read.lean ====
section
/-! DEFINITION. The thirteen read commands (spec 45_read.md). -/

namespace Sys2Proof.Machine

/-- RD.REG r (45_read.md R180). -/
def execRdReg (r : Arg) (s : State) : Host.Outcome State Fault Refusal :=
  answer (regValue s r.toNat) .badIndex (argWord r) s

/-- RD.SRC i (45_read.md R181). -/
def execRdSrc (i : Arg) (s : State) : Host.Outcome State Fault Refusal :=
  answer (s.src[i.toNat]?.map symbolWord) .badIndex (argWord i) s

/-- RD.BITS j (45_read.md R182). -/
def execRdBits (j : Arg) (s : State) : Host.Outcome State Fault Refusal :=
  if s.bits.length ≤ 32 * j.toNat then fail .badIndex (argWord j) s
  else done (packedWord s.bits j.toNat) s

/-- RD.DST i (45_read.md R183). -/
def execRdDst (i : Arg) (s : State) : Host.Outcome State Fault Refusal :=
  answer (s.dst[i.toNat]?.map symbolWord) .badIndex (argWord i) s

/-- RD.FSYM k (45_read.md R184). -/
def execRdFsym (k : Arg) (s : State) : Host.Outcome State Fault Refusal :=
  answer (s.ft[k.toNat]?.map fun e => symbolWord e.sym) .badIndex (argWord k) s

/-- RD.FCNT k (45_read.md R185). -/
def execRdFcnt (k : Arg) (s : State) : Host.Outcome State Fault Refusal :=
  answer (s.ft[k.toNat]?.map fun e => natWord e.cnt) .badIndex (argWord k) s

/-- RD.CLEN k (45_read.md R186). -/
def execRdClen (k : Arg) (s : State) : Host.Outcome State Fault Refusal :=
  if s.ndist ≤ k.toNat then fail .badIndex (argWord k) s
  else
    match s.code[k.toNat]? with
    | some c => done (natWord c.length) s
    | none => .fault .codewordMissing

/-- RD.CBITS k, j (45_read.md R187). -/
def execRdCbits (k : BitVec 14) (j : BitVec 8) (s : State) : Host.Outcome State Fault Refusal :=
  if s.ndist ≤ k.toNat then fail .badIndex (argWord (cbitsArg k j)) s
  else
    match s.code[k.toNat]? with
    | some c =>
      if c.length ≤ 32 * j.toNat then fail .badIndex (argWord (cbitsArg k j)) s
      else done (packedWord c j.toNat) s
    | none => .fault .codewordMissing

/-- RD.COF s (45_read.md R188): a value that is no symbol is in no entry. -/
def execRdCof (sym : Arg) (s : State) : Host.Outcome State Fault Refusal :=
  answer (((symbolOf sym).bind (entryOf s.ft)).map natWord) .unknownSymbol (argWord sym) s

/-- RD.NKIND x (45_read.md R189). -/
def execRdNkind (x : Arg) (s : State) : Host.Outcome State Fault Refusal :=
  answer (s.node[x.toNat]?.map Node.kindWord) .badIndex (argWord x) s

/-- RD.NW x (45_read.md R190). -/
def execRdNw (x : Arg) (s : State) : Host.Outcome State Fault Refusal :=
  answer (s.node[x.toNat]?.map fun n => natWord n.weight) .badIndex (argWord x) s

/-- RD.NL x (45_read.md R191). -/
def execRdNl (x : Arg) (s : State) : Host.Outcome State Fault Refusal :=
  answer (s.node[x.toNat]?.map Node.leftWord) .badIndex (argWord x) s

/-- RD.NR x (45_read.md R192). -/
def execRdNr (x : Arg) (s : State) : Host.Outcome State Fault Refusal :=
  answer (s.node[x.toNat]?.map Node.rightWord) .badIndex (argWord x) s

end Sys2Proof.Machine
end

