-- ==== Sys2Proof/Machine/Dispatch.lean ====
section
/-! DEFINITION. One arm per command: each calls its meaning. -/

namespace Sys2Proof.Machine

def exec (i : Instr) (s : State) : Host.Outcome State Fault Refusal :=
  match i with
  | .nop => Sys2Proof.Machine.execNop s
  | .clear mask => Sys2Proof.Machine.execClear mask s
  | .pushSym sym => Sys2Proof.Machine.execPushSym sym s
  | .pushBits n value => Sys2Proof.Machine.execPushBits n value s
  | .build => Sys2Proof.Machine.execBuild s
  | .encode => Sys2Proof.Machine.execEncode s
  | .noise p => Sys2Proof.Machine.execNoise p s
  | .decode => Sys2Proof.Machine.execDecode s
  | .rdReg r => Sys2Proof.Machine.execRdReg r s
  | .rdSrc k => Sys2Proof.Machine.execRdSrc k s
  | .rdBits j => Sys2Proof.Machine.execRdBits j s
  | .rdDst k => Sys2Proof.Machine.execRdDst k s
  | .rdFsym k => Sys2Proof.Machine.execRdFsym k s
  | .rdFcnt k => Sys2Proof.Machine.execRdFcnt k s
  | .rdClen k => Sys2Proof.Machine.execRdClen k s
  | .rdCbits k j => Sys2Proof.Machine.execRdCbits k j s
  | .rdCof sym => Sys2Proof.Machine.execRdCof sym s
  | .rdNkind x => Sys2Proof.Machine.execRdNkind x s
  | .rdNw x => Sys2Proof.Machine.execRdNw x s
  | .rdNl x => Sys2Proof.Machine.execRdNl x s
  | .rdNr x => Sys2Proof.Machine.execRdNr x s

end Sys2Proof.Machine
end

