-- ==== Sys2Proof/Machine/Port.lean ====
section
/-! DEFINITION. The ports: which command a step runs, and what a step does when it runs none (spec 30_encoding.md R81,
10_state.md R37, 70_reset_and_hazards.md R250, R254, R259). -/

namespace Sys2Proof.Machine

/-- What one step does. -/
inductive Turn where
  /-- No command is run: the step ends in `s`. -/
  | stay (s : State)
  /-- The command `i` is run from `s`. -/
  | run (i : Instr) (s : State)
deriving DecidableEq, Repr

/-- One event of the host or the entropy source (30_encoding.md R81; log 2); with none left, all state is kept
(60_exceptions.md R233). Taking a response sets PENDING to none (10_state.md R37). -/
def takeInput (s : State) : State :=
  match s.inputs with
  | [] => s
  | .offer w :: rest => { s with offered := s.offered ++ [w], inputs := rest }
  | .take :: rest => { s with pending := none, inputs := rest }
  | .reset :: rest => resetBlock { s with inputs := rest }
  | .draws k :: rest => { s with entropy := s.entropy.supply k, inputs := rest }
  | .idle :: rest => { s with inputs := rest }

/-- An accepted word: its command is run, or, where it is illegal, ILLEGAL_COMMAND is raised with the word, before any
other check (30_encoding.md R85). -/
def acceptWord (w : Word) (s : State) : Turn :=
  match decode w with
  | .ok i => .run i s
  | .error _ => .stay (raise .illegalCommand w s)

/-- An asserted reset comes first: between any two steps, whatever the block could do next (70_reset_and_hazards.md R250).
Else a NOISE that waits goes on when its draws are there, and no command is accepted meanwhile (70_reset_and_hazards.md
R259). Else the block accepts the offered word exactly when `cmd_ready` (30_encoding.md R81, 10_state.md R37). Else the
next event happens. -/
def turn (s : State) : Turn :=
  if s.resetAsserted then .stay (takeInput s)
  else
    match s.waiting with
    | some p =>
      if s.entropy.offers s.bits.length then .run (.noise p) { s with waiting := none }
      else .stay (takeInput s)
    | none =>
      match s.offered with
      | w :: rest => if s.cmdReady then acceptWord w { s with offered := rest } else .stay (takeInput s)
      | [] => .stay (takeInput s)

end Sys2Proof.Machine
end

