-- ==== Sys2Proof/Machine/Step.lean ====
section
/-! DEFINITION. One step of the machine (spec 00_scope.md R7): the ports decide, and a command that is run is run whole. -/

namespace Sys2Proof.Machine

/-- One step: an accepted command as one atomic step (00_scope.md R7), or one event of the host or the entropy source. -/
def step (s : State) : Host.Outcome State Fault Refusal :=
  match turn s with
  | .stay t => .next t
  | .run i t => exec i t

/-- `s` with a table word offered first on the command port and the block ready to accept it: no response pending, no
NOISE waiting, and a reset that is asserted put off by an idle event (30_encoding.md R81, 70_reset_and_hazards.md R250).
The very next step accepts exactly this word. -/
def State.withFetchWord (s : State) (nbits w : Nat) : State :=
  { s with
    offered := tableWord nbits w :: s.offered
    pending := none
    waiting := none
    inputs := if s.resetAsserted then .idle :: s.inputs else s.inputs }

end Sys2Proof.Machine
end

