-- ==== Sys2Proof/Safety.lean ====
section
/-! DEFINITION. What the claims call a good state and a run: the invariant of spec 10_state.md R35 (with R25, R31 and
R37), the states a run reaches, prefix-freeness (R36), and what each command may write or raise (R42, 60_exceptions.md R221). -/

namespace Sys2Proof.Machine

/-- No table (10_state.md R35 point 2). -/
structure TableEmpty (s : State) : Prop where
  ft_empty   : s.ft = []
  node_empty : s.node = []
  code_empty : s.code = []

/-- A table that BUILD wrote (10_state.md R25, R35 points 2 to 4): NODE and CODE are the tree and the code table of FT. -/
structure TableBuilt (s : State) : Prop where
  ndist_pos        : 1 ≤ s.ft.length
  ndist_le         : s.ft.length ≤ s.params.nSym
  symbols_distinct : (s.ft.map Entry.sym).Nodup
  counts_pos       : ∀ e ∈ s.ft, 1 ≤ e.cnt
  total_le         : totalCount s.ft ≤ s.params.srcCap
  node_eq          : s.node = tree s.ft
  code_eq          : s.code = codes s.ft (tree s.ft) (rootOf (tree s.ft))

/-- The invariant of the machine: legal parameters (00_scope.md R4), the bounds of 10_state.md R35 point 1, the table
(points 2 to 4), error and response codes 0 to 8 (60_exceptions.md R221), and a NOISE waits only with a legal
probability and no response pending (70_reset_and_hazards.md R259, 10_state.md R37). -/
structure Inv (s : State) : Prop where
  params_legal : s.params.Legal
  src_le       : s.src.length ≤ s.params.srcCap
  bits_le      : s.bits.length ≤ s.params.bitCap
  dst_le       : s.dst.length ≤ s.params.dstCap
  tail_le      : s.tail ≤ s.params.bitCap
  table        : TableEmpty s ∨ TableBuilt s
  errcode_le   : s.errcode.toNat ≤ 8
  response_le  : ∀ r, s.pending = some r → r.code.toNat ≤ 8
  waiting_ok   : ∀ p, s.waiting = some p → p.toNat ≤ maxProbability ∧ s.pending = none

/-- The block after reset with any parameters, any entropy source, and any host (00_scope.md R4, R6; log 2, log 3). -/
def startState (p : Params) (e : Entropy) (offered : List Word) (inputs : List Input) : State :=
  { State.reset with params := p, entropy := e, offered := offered, inputs := inputs }

/-- The states that runs reach: from reset, with legal parameters, whatever the host and the entropy source do. -/
inductive Reachable : State → Prop where
  | start (p : Params) (e : Entropy) (offered : List Word) (inputs : List Input) (h : p.Legal) :
      Reachable (startState p e offered inputs)
  | step {s t : State} (h : Reachable s) (hst : step s = .next t) : Reachable t

/-- The four invariants of 10_state.md R35, word by word. -/
structure RuleR35 (s : State) : Prop where
  /-- Point 1. -/
  bounds : s.src.length ≤ s.params.srcCap ∧ s.bits.length ≤ s.params.bitCap ∧
    s.dst.length ≤ s.params.dstCap ∧ s.tail ≤ s.params.bitCap
  /-- Point 2. -/
  sizes : (s.ft = [] ∧ s.node = [] ∧ s.code = []) ∨
    (1 ≤ s.ft.length ∧ s.ft.length ≤ s.params.nSym ∧ s.node.length = 2 * s.ft.length - 1 ∧
      s.code.length = s.ft.length)
  /-- Point 3. -/
  computed : s.ft ≠ [] → s.node = tree s.ft ∧ s.code = codes s.ft (tree s.ft) (rootOf (tree s.ft))
  /-- Point 4. -/
  weights : (∀ e ∈ s.ft, 1 ≤ e.cnt ∧ e.cnt ≤ s.params.srcCap) ∧
    (∀ n ∈ s.node, 1 ≤ n.weight ∧ n.weight ≤ s.params.srcCap)

/-- No codeword of the table is a beginning of another, and none stands twice (10_state.md R36, 00_scope.md R8). -/
def PrefixFree (code : List Bits) : Prop :=
  ∀ (i j : Nat) (c d : Bits), i ≠ j → code[i]? = some c → code[j]? = some d → ¬ c <+: d

/-- The row of 10_state.md R42 for each command: `t` differs from `s` at most in what the command may write on success,
PENDING aside. CLEAR may write the groups its mask selects and no other; the load commands append, PUSH.BITS as many bits
as its operand says, which is 1 to 22 in every command that a word carries (30_encoding.md R83). NOISE also takes draws,
which moves the model's entropy source on (44_noise.md R171; log 3). -/
def Writes (i : Instr) (s t : State) : Prop :=
  match i with
  | .clear mask =>
    t = { s with
      src := if mask.getLsbD 0 then t.src else s.src
      bits := if mask.getLsbD 1 then t.bits else s.bits
      dst := if mask.getLsbD 2 then t.dst else s.dst
      tail := if mask.getLsbD 2 then t.tail else s.tail
      ft := if mask.getLsbD 3 then t.ft else s.ft
      node := if mask.getLsbD 3 then t.node else s.node
      code := if mask.getLsbD 3 then t.code else s.code
      errcode := if mask.getLsbD 4 then t.errcode else s.errcode
      errinfo := if mask.getLsbD 4 then t.errinfo else s.errinfo }
  | .pushSym _ => ∃ c : Symbol, t = { s with src := s.src ++ [c] }
  | .pushBits n value =>
    ∃ b : Bits, t = { s with bits := s.bits ++ b } ∧ b.length = n ∧
      (WellFormed (.pushBits n value) → 1 ≤ b.length ∧ b.length ≤ 22)
  | .build => t = { s with ft := t.ft, node := t.node, code := t.code }
  | .encode => t = { s with bits := t.bits }
  | .noise _ => t = { s with bits := t.bits, entropy := t.entropy } ∧ t.bits.length = s.bits.length
  | .decode => t = { s with dst := t.dst, tail := t.tail }
  | .nop => t = s
  | .rdReg _ | .rdSrc _ | .rdBits _ | .rdDst _ | .rdFsym _ | .rdFcnt _ | .rdClen _ | .rdCbits _ _ => t = s
  | .rdCof _ | .rdNkind _ | .rdNw _ | .rdNl _ | .rdNr _ => t = s

/-- The errors that a command can raise, ILLEGAL_COMMAND aside, which the word raises (60_exceptions.md R221). -/
def mayRaise : Instr → List Error
  | .nop | .clear _ | .decode => []
  | .pushSym _ => [.invalidSymbol, .capacity]
  | .pushBits _ _ => [.capacity]
  | .build => [.emptyInput, .tooManySymbols]
  | .encode => [.unknownSymbol, .capacity]
  | .noise _ => [.invalidProbability]
  | .rdCof _ => [.unknownSymbol]
  | .rdReg _ | .rdSrc _ | .rdBits _ | .rdDst _ | .rdFsym _ | .rdFcnt _ | .rdClen _ | .rdCbits _ _ => [.badIndex]
  | .rdNkind _ | .rdNw _ | .rdNl _ | .rdNr _ => [.badIndex]

/-- Node `y` is a child of node `x` (10_state.md R26). -/
def IsChild (node : List Node) (y x : Nat) : Prop :=
  ∃ w l r, node[x]? = some (.internal w l r) ∧ (y = l ∨ y = r)

/-- Node `y` is in the priority queue when node `x` is made: it was made before `x`, and no node made before `x` took it
as a child (42_build.md R122, R123). -/
def InQueueAt (node : List Node) (y x : Nat) : Prop :=
  y < x ∧ ∀ z, z < x → ¬ IsChild node y z

/-- The key of node `x` in the priority queue, `(w(node[x]), x)` (42_build.md R122). -/
def keyOf (node : List Node) (x : Nat) : Key := ((node[x]?.map Node.weight).getD 0, x)

/-- The node that the bits `b` lead to from node `x`: left on 0, right on 1 (42_build.md R125). -/
def follow (node : List Node) (x : Nat) : Bits → Option Nat
  | [] => some x
  | b :: rest =>
    match node[x]? with
    | some (.internal _ l r) => follow node (if b then r else l) rest
    | _ => none

/-- The tree-walking decoder of 43_codec.md R153 case 3, from node `x` at depth `d`: the symbols emitted, and the depth
of the node reached. -/
def treeDecode (node : List Node) (out : List Symbol) (x d : Nat) : Bits → List Symbol × Nat
  | [] => (out, d)
  | b :: rest =>
    match node[x]? with
    | some (.internal _ l r) =>
      match node[if b then r else l]? with
      | some (.leaf c _) => treeDecode node (out ++ [c]) (rootOf node) 0 rest
      | _ => treeDecode node out (if b then r else l) (d + 1) rest
    | _ => (out, d)

end Sys2Proof.Machine
end

