-- ==== Sys2Proof/Certificates/Slice0/Obligations.lean ====
section
/-! DEFINITION. The statements about the model, one `def Obligations.<Name> : Prop` each, in the order of
OBLIGATIONS.json. Each docstring names the rule of spec/ it comes from. -/

open Sys2Proof Sys2Proof.Machine

namespace Sys2Proof.Claims

/-- The outcome of a command that succeeds with data `v` and leaves `t` but for PENDING (spec 00_scope.md R9). -/
def okWith (v : Word) (t : State) : Host.Outcome State Fault Refusal :=
  .next { t with pending := some { code := 0, data := v } }

/-- The outcome of a command that raises the error of code `c` in state `s` (spec 60_exceptions.md R220). -/
def errWith (c : BitVec 4) (info : Word) (s : State) : Host.Outcome State Fault Refusal :=
  .next { s with errcode := c, errinfo := info, pending := some { code := c, data := 0 } }

/-- `cmd_ready`: no response pending and no command executing (spec 30_encoding.md R81). -/
def Ready (s : State) : Prop := s.pending = none ∧ s.waiting = none

/-- The step runs no command: a NOISE waits and its draws are not there, or a response is pending, or no word is offered
(spec 10_state.md R37, 70_reset_and_hazards.md R254, R259). -/
def Blocked (s : State) : Prop :=
  (s.waiting ≠ none ∧ s.entropy.offers s.bits.length = false) ∨
  (s.waiting = none ∧ (s.pending ≠ none ∨ s.offered = []))

/-- The ten components of spec 10_state.md R20 have their reset values (R41). -/
def ResetComponents (t : State) : Prop :=
  t.src = [] ∧ t.bits = [] ∧ t.dst = [] ∧ t.ft = [] ∧ t.node = [] ∧ t.code = [] ∧ t.tail = 0 ∧
  t.errcode = 0 ∧ t.errinfo = 0 ∧ t.pending = none

/-- The two states agree on the nine components a command can read, and on the parameters (spec 00_scope.md R7). -/
def SameBlock (s t : State) : Prop :=
  s.src = t.src ∧ s.bits = t.bits ∧ s.dst = t.dst ∧ s.ft = t.ft ∧ s.node = t.node ∧ s.code = t.code ∧
  s.tail = t.tail ∧ s.errcode = t.errcode ∧ s.errinfo = t.errinfo ∧ s.params = t.params

/-- The commands of which spec 20_memory.md R67 says that repeating them changes nothing more: the reads, BUILD, ENCODE
and DECODE. -/
def repeatable : Instr → Bool
  | .build | .encode | .decode => true
  | .rdReg _ | .rdSrc _ | .rdBits _ | .rdDst _ | .rdFsym _ | .rdFcnt _ | .rdClen _ | .rdCbits _ _ => true
  | .rdCof _ | .rdNkind _ | .rdNw _ | .rdNl _ | .rdNr _ => true
  | .nop | .clear _ | .pushSym _ | .pushBits _ _ | .noise _ => false

/-- The thirteen read commands (spec 45_read.md). -/
def isRead : Instr → Bool
  | .rdReg _ | .rdSrc _ | .rdBits _ | .rdDst _ | .rdFsym _ | .rdFcnt _ | .rdClen _ | .rdCbits _ _ => true
  | .rdCof _ | .rdNkind _ | .rdNw _ | .rdNl _ | .rdNr _ => true
  | .build | .encode | .decode | .nop | .clear _ | .pushSym _ | .pushBits _ _ | .noise _ => false

end Sys2Proof.Claims

open Sys2Proof.Claims

/-! ## The encoding -/

/-- 30_encoding.md R80, R82 to R84: every well-formed command is read back from its word, with every operand. -/
def Obligations.DecodeOfEncodedCommand : Prop :=
  ∀ i : Instr, WellFormed i → decode (encode i) = .ok i

/-- 30_encoding.md R80, R88: a word that decodes is the word of the command it decodes to, which is well-formed: no two
words stand for one command, and no bit of a legal word is ignored. -/
def Obligations.EncodeOfDecodedWord : Prop :=
  ∀ (w : Word) (i : Instr), decode w = .ok i → WellFormed i ∧ encode i = w

/-- 30_encoding.md R82, R84, R85: the words the decoder refuses are exactly the illegal ones of R85. -/
def Obligations.DecoderRefusesExactlyIllegalWords : Prop :=
  ∀ w : Word, (∃ e, decode w = .error e) ↔ IllegalWord w

/-- 30_encoding.md R80, R82, R84: words written out from the encoding tables decode to the commands they stand for. -/
def Obligations.WrittenWordsDecode : Prop :=
  decode 0b00000_00000_0000000000000000000000#32 = .ok .nop ∧
  decode 0b00001_01000_0000000000000000000000#32 = .ok (.clear 0b01000) ∧
  decode 0b00010_00000_0000000000000001000001#32 = .ok (.pushSym 0x41) ∧
  decode 0b00011_00011_0000000000000000000010#32 = .ok (.pushBits 4 2) ∧
  decode 0b00110_00000_0000001000000000000000#32 = .ok (.noise 0x8000) ∧
  decode 0b01000_00111_0000000100000000000010#32 = .ok (.rdCbits 2 1) ∧
  decode 0b01000_01100_0000000000000000000100#32 = .ok (.rdNr 4)

/-! ## The step, the ports and reset -/

/-- 00_scope.md R7, 30_encoding.md R81, 20_memory.md R68: when the block is ready and the first word offered decodes to a
command, the step runs that command, whole, and the word is no longer offered; where reset is asserted, it comes first
(ResetFromEveryState). -/
def Obligations.StepRunsOfferedCommand : Prop :=
  ∀ (s : State) (w : Word) (rest : List Word) (i : Instr),
    Ready s → s.resetAsserted = false → s.offered = w :: rest → decode w = .ok i → step s = exec i { s with offered := rest }

/-- 30_encoding.md R85: an illegal word raises ILLEGAL_COMMAND with the whole word, and changes nothing else. -/
def Obligations.IllegalWordRaisesIllegalCommand : Prop :=
  ∀ (s : State) (w : Word) (rest : List Word),
    Ready s → s.resetAsserted = false → s.offered = w :: rest → IllegalWord w → step s = errWith 6 w { s with offered := rest }

/-- 70_reset_and_hazards.md R259: in a state where a NOISE waits and its draws are all there, and reset is not asserted, the
step runs the NOISE. That a
waiting NOISE stands in a field, and runs in one step only when all its draws are there, is the model's choice (log 4). -/
def Obligations.WaitingNoiseGoesOn : Prop :=
  ∀ (s : State) (p : Arg), s.resetAsserted = false → s.waiting = some p → s.entropy.offers s.bits.length = true →
    step s = exec (.noise p) { s with waiting := none }

/-- 10_state.md R37, 30_encoding.md R81, 60_exceptions.md R233, 70_reset_and_hazards.md R254, R259: while the block runs
no command, only the events of the host and the entropy source happen; with none left nothing changes. The order of the
events is the model's (log 2). -/
def Obligations.BlockedStepRunsNoCommand : Prop :=
  ∀ (s : State), Blocked s →
    (s.inputs = [] → step s = .next s) ∧
    (∀ w rest, s.inputs = .offer w :: rest →
      step s = .next { s with offered := s.offered ++ [w], inputs := rest }) ∧
    (∀ rest, s.inputs = .take :: rest → step s = .next { s with pending := none, inputs := rest }) ∧
    (∀ k rest, s.inputs = .draws k :: rest →
      step s = .next { s with entropy := { s.entropy with left := s.entropy.left.map (· + k) }, inputs := rest }) ∧
    (∀ rest, s.inputs = .idle :: rest → step s = .next { s with inputs := rest })

/-- 70_reset_and_hazards.md R250, R251, 10_state.md R41: from every state, whatever command could run or waits, a reset that
is asserted comes first: the ports offer and accept nothing, and the step puts every component in its reset value, discards
the response, abandons a NOISE that waits, whose draws are lost and come from the source no more, and leaves the parameters;
then the block accepts a command. The model's choices: a NOISE that waits had taken every draw offered, up to one for each
bit (log 4); the words offered and the events to come stay (log 2). -/
def Obligations.ResetFromEveryState : Prop :=
  ∀ (s : State) (rest : List Input), s.inputs = .reset :: rest →
    s.cmdReady = false ∧ s.rspValid = false ∧ s.rndReady = false ∧
    ∃ t, step s = .next t ∧ ResetComponents t ∧ t.waiting = none ∧ t.params = s.params ∧ t.offered = s.offered ∧
      t.inputs = rest ∧ (t.resetAsserted = false → t.cmdReady = true) ∧
      (s.waiting = none → t.entropy = s.entropy) ∧
      (∀ m, s.waiting ≠ none → s.entropy.left = some m →
        t.entropy =
          { fixed := s.entropy.fixed.drop (min s.bits.length m)
            taken := s.entropy.taken + min s.bits.length m
            left := some (m - min s.bits.length m) }) ∧
      (s.waiting ≠ none → s.entropy.left = none →
        t.entropy =
          { fixed := s.entropy.fixed.drop s.bits.length, taken := s.entropy.taken + s.bits.length, left := none })

/-- 10_state.md R41: every component of the state after reset, and the registers that R41 names; the three capacities read
as the parameters of the state, whichever they are (log 1). -/
def Obligations.ResetValues : Prop :=
  ResetComponents State.reset ∧ State.reset.waiting = none ∧
  regValue State.reset 0 = some 0x48554631 ∧
  (∀ r : Nat, 1 ≤ r → r ≤ 12 → regValue State.reset r = some 0) ∧
  regValue State.reset 13 = some (natWord State.reset.params.nSym) ∧
  regValue State.reset 14 = some (natWord State.reset.params.srcCap) ∧
  regValue State.reset 15 = some (natWord State.reset.params.bitCap)

/-- 30_encoding.md R87, 10_state.md R37: a command that ends gives one response, with data 0 where it is an error; the
only command that does not end in its step is a NOISE that waits (70_reset_and_hazards.md R259), which has changed nothing but
that it waits: that it has taken no draw yet is the model's choice (log 4). -/
def Obligations.EveryCommandAnswers : Prop :=
  ∀ (i : Instr) (s t : State), Ready s → exec i s = .next t →
    (t.waiting = none ∧ ∃ r, t.pending = some r ∧ (r.code ≠ 0 → r.data = 0)) ∨
    (∃ p, i = .noise p ∧ t = { s with waiting := some p })

/-! ## The control and load commands -/

/-- 40_control.md R100: NOP. -/
def Obligations.NopChangesNothing : Prop :=
  ∀ s : State, exec .nop s = okWith 0 s

/-- 40_control.md R101: CLEAR empties exactly the groups its mask selects. -/
def Obligations.ClearEmptiesSelectedGroups : Prop :=
  ∀ (mask : Sel) (s : State),
    exec (.clear mask) s = okWith 0
      { s with
        src := if mask.getLsbD 0 then [] else s.src
        bits := if mask.getLsbD 1 then [] else s.bits
        dst := if mask.getLsbD 2 then [] else s.dst
        tail := if mask.getLsbD 2 then 0 else s.tail
        ft := if mask.getLsbD 3 then [] else s.ft
        node := if mask.getLsbD 3 then [] else s.node
        code := if mask.getLsbD 3 then [] else s.code
        errcode := if mask.getLsbD 4 then 0 else s.errcode
        errinfo := if mask.getLsbD 4 then 0 else s.errinfo }

/-- 41_load.md R110: PUSH.SYM appends a symbol, or raises INVALID_SYMBOL, or CAPACITY, in this order. -/
def Obligations.PushSymAppendsOneSymbol : Prop :=
  ∀ (sym : Arg) (s : State),
    (0x10FFFF < sym.toNat → exec (.pushSym sym) s = errWith 8 (sym.setWidth 32) s) ∧
    (sym.toNat ≤ 0x10FFFF → s.src.length = s.params.srcCap →
      exec (.pushSym sym) s = errWith 4 (natWord s.src.length) s) ∧
    (sym.toNat ≤ 0x10FFFF → s.src.length ≠ s.params.srcCap →
      ∃ c : Symbol, c.val = sym.toNat ∧
        exec (.pushSym sym) s = okWith (natWord (s.src.length + 1)) { s with src := s.src ++ [c] })

/-- 41_load.md R111, 20_memory.md R72: PUSH.BITS appends its n bits, the most significant first, or, where they do not
all fit, none of them. -/
def Obligations.PushBitsAppendsMostSignificantFirst : Prop :=
  ∀ (n : Nat) (value : Arg) (s : State),
    (s.params.bitCap < s.bits.length + n → exec (.pushBits n value) s = errWith 4 (natWord s.bits.length) s) ∧
    (s.bits.length + n ≤ s.params.bitCap →
      ∃ b : Bits, b.length = n ∧ (∀ i, i < n → b[i]? = some (value.getLsbD (n - 1 - i))) ∧
        exec (.pushBits n value) s = okWith (natWord (s.bits.length + n)) { s with bits := s.bits ++ b })

/-! ## The tree builder and the code generator -/

/-- 42_build.md R120, R126: BUILD raises EMPTY_INPUT, or TOO_MANY_SYMBOLS, and keeps the table, or writes FT, NODE and
CODE together; it succeeds whenever SRC is not empty and holds at most N_SYM distinct symbols. -/
def Obligations.BuildWritesWholeTable : Prop :=
  ∀ s : State,
    (s.src = [] → exec .build s = errWith 1 0 s) ∧
    (∀ i, s.src ≠ [] → freqTable s.params.nSym s.src = .error i → exec .build s = errWith 5 (natWord i) s) ∧
    (∀ ft, s.src ≠ [] → freqTable s.params.nSym s.src = .ok ft →
      exec .build s = okWith (natWord ft.length)
        { s with ft := ft, node := tree ft, code := codes ft (tree ft) (rootOf (tree ft)) }) ∧
    (s.src ≠ [] → s.src.dedup.length ≤ s.params.nSym →
      ∃ ft, freqTable s.params.nSym s.src = .ok ft ∧ ft.length = s.src.dedup.length ∧
        exec .build s = okWith (natWord ft.length)
          { s with ft := ft, node := tree ft, code := codes ft (tree ft) (rootOf (tree ft)) })

/-- 42_build.md R121, 10_state.md R25, R29: the frequency table has one entry per distinct symbol, with its number of
occurrences, in the order of first occurrence, and the counts sum to the length. -/
def Obligations.FreqTableCountsOccurrences : Prop :=
  ∀ (n : Nat) (src : List Symbol) (ft : List Entry), freqTable n src = .ok ft →
    (ft.map Entry.sym).Nodup ∧ (∀ c, c ∈ ft.map Entry.sym ↔ c ∈ src) ∧
    (∀ e ∈ ft, e.cnt = src.count e.sym) ∧
    (ft.map Entry.sym).Pairwise (fun c d => src.idxOf c < src.idxOf d) ∧
    totalCount ft = src.length ∧ ft.length ≤ n

/-- 42_build.md R121, 60_exceptions.md R222: the table overflows exactly at the first symbol that would be entry number
N_SYM: a new symbol after N_SYM distinct ones. -/
def Obligations.FreqTableOverflowsAtFirstExcess : Prop :=
  ∀ (n : Nat) (src : List Symbol) (i : Nat),
    freqTable n src = .error i ↔
      ∃ c, src[i]? = some c ∧ c ∉ src.take i ∧ (src.take i).dedup.length = n

/-- 42_build.md R122: PopMin answers nothing only for an empty queue; else it removes one member, and its key is below
every other's in the lexicographic order of weight and node index. -/
def Obligations.PopMinTakesTheLeastKey : Prop :=
  (∀ q : List Key, popMin q = none ↔ q = []) ∧
  (∀ (q q' : List Key) (k : Key), popMin q = some (k, q') →
    q.Perm (k :: q') ∧ ∀ x ∈ q, x = k ∨ k.1 < x.1 ∨ (k.1 = x.1 ∧ k.2 < x.2))

/-- 10_state.md R26, 42_build.md R123: the tree of n entries has 2n - 1 nodes; the first n are the leaves of the entries,
the others internal nodes with two distinct children made before them, whose weights sum to theirs; every node but the
root is the child of exactly one node, and the root of none. -/
def Obligations.TreeIsStrictlyBinary : Prop :=
  ∀ ft : List Entry, 1 ≤ ft.length →
    (tree ft).length = 2 * ft.length - 1 ∧
    (∀ (k : Nat) (e : Entry), ft[k]? = some e → (tree ft)[k]? = some (Node.leaf e.sym e.cnt)) ∧
    (∀ x, ft.length ≤ x → x < (tree ft).length →
      ∃ w l r nl nr, (tree ft)[x]? = some (Node.internal w l r) ∧ l < x ∧ r < x ∧ l ≠ r ∧
        (tree ft)[l]? = some nl ∧ (tree ft)[r]? = some nr ∧ w = nl.weight + nr.weight) ∧
    (∀ y, y < rootOf (tree ft) → ∃! x, IsChild (tree ft) y x) ∧
    (∀ x, ¬ IsChild (tree ft) (rootOf (tree ft)) x)

/-- 42_build.md R122, R123: every internal node joins the two nodes with the least keys of those in the queue when it is
made, the lesser on the left. -/
def Obligations.TreeJoinsTheTwoLeastNodes : Prop :=
  ∀ (ft : List Entry) (x w l r : Nat), 1 ≤ ft.length → (tree ft)[x]? = some (Node.internal w l r) →
    InQueueAt (tree ft) l x ∧ InQueueAt (tree ft) r x ∧
    Key.before (keyOf (tree ft) l) (keyOf (tree ft) r) = true ∧
    ∀ y, InQueueAt (tree ft) y x → y ≠ l → y ≠ r → Key.before (keyOf (tree ft) r) (keyOf (tree ft) y) = true

/-- 42_build.md R124, R125: the codeword of an entry is the path from the root to its leaf, 0 for left and 1 for right;
the codeword of the only entry is "0". -/
def Obligations.CodewordsAreRootPaths : Prop :=
  ∀ ft : List Entry,
    (ft.length = 1 → codes ft (tree ft) (rootOf (tree ft)) = [[false]]) ∧
    (2 ≤ ft.length → (codes ft (tree ft) (rootOf (tree ft))).length = ft.length ∧
      ∀ k, k < ft.length → ∃ b, (codes ft (tree ft) (rootOf (tree ft)))[k]? = some b ∧
        follow (tree ft) (rootOf (tree ft)) b = some k)

/-- 10_state.md R36: in every state that meets the invariant no codeword is a beginning of another and none stands twice,
and the reverse table names exactly the entry's symbol for each codeword. -/
def Obligations.CodewordsArePrefixFree : Prop :=
  ∀ s : State, Inv s →
    PrefixFree s.code ∧
    (∀ (k : Nat) (e : Entry) (c : Bits), s.ft[k]? = some e → s.code[k]? = some c → rev s.ft s.code c = some e.sym)

/-- 42_build.md R127 property 2, 10_state.md R28, R29: 1 <= CLEN[k] <= max(1, n - 1) <= LMAX, and MAXLEN is the largest
codeword length, 0 when there is no table. -/
def Obligations.CodewordLengthsBounded : Prop :=
  ∀ s : State, Inv s →
    (∀ c ∈ s.code, 1 ≤ c.length ∧ c.length ≤ max 1 (s.ft.length - 1) ∧ c.length ≤ s.params.lmax) ∧
    s.maxlen ≤ s.params.lmax ∧
    (∀ c ∈ s.code, c.length ≤ s.maxlen) ∧ (s.ft ≠ [] → ∃ c ∈ s.code, c.length = s.maxlen) ∧ (s.ft = [] → s.maxlen = 0)

/-- 42_build.md R127 property 3: for two entries or more the code is complete: every bit sequence of at least MAXLEN bits
begins with exactly one codeword. -/
def Obligations.CodeIsComplete : Prop :=
  ∀ (s : State) (b : Bits), Inv s → 2 ≤ s.ft.length → s.maxlen ≤ b.length →
    ∃! k : Nat, ∃ c, s.code[k]? = some c ∧ c <+: b

/-- 42_build.md R127 property 5, which the spec marks as general knowledge and a check: an entry with a higher count never
has a longer codeword. -/
def Obligations.HigherCountNeverLongerCodeword : Prop :=
  ∀ (s : State) (j k : Nat) (ej ek : Entry) (cj ck : Bits), Inv s →
    s.ft[j]? = some ej → s.ft[k]? = some ek → s.code[j]? = some cj → s.code[k]? = some ck →
    ek.cnt < ej.cnt → cj.length ≤ ck.length

/-- 45_read.md R190, 10_state.md R29: the weight of the root is TOTAL. -/
def Obligations.RootWeightIsTotal : Prop :=
  ∀ s : State, Inv s → s.ft ≠ [] → ∃ n, s.node[s.root]? = some n ∧ n.weight = s.total

/-! ## The codec -/

/-- 43_codec.md R150, R151: where every symbol of SRC has an entry with a codeword and the codewords fit, ENCODE makes
BITS their concatenation, and its length the response. -/
def Obligations.EncodeConcatenatesCodewords : Prop :=
  ∀ (s : State) (ws : List Bits),
    s.src.map (fun c => (entryOf s.ft c).bind fun k => s.code[k]?) = ws.map some →
    ws.flatten.length ≤ s.params.bitCap →
    exec .encode s = okWith (natWord ws.flatten.length) { s with bits := ws.flatten }

/-- 43_codec.md R150, 60_exceptions.md R222, R223: ENCODE raises UNKNOWN_SYMBOL at the least SRC index whose symbol has no
entry, before any check of capacity; and, where every symbol has one, CAPACITY at the first symbol whose codeword does not
fit. -/
def Obligations.EncodeErrorsAtLeastIndex : Prop :=
  ∀ (s : State) (u v : List Symbol) (c : Symbol), s.src = u ++ c :: v →
    ((∀ d ∈ u, d ∈ s.ft.map Entry.sym) → c ∉ s.ft.map Entry.sym →
      exec .encode s = errWith 2 (natWord u.length) s) ∧
    (∀ (ws : List Bits) (w : Bits), (∀ d ∈ s.src, d ∈ s.ft.map Entry.sym) →
      u.map (fun c => (entryOf s.ft c).bind fun k => s.code[k]?) = ws.map some →
      ((entryOf s.ft c).bind fun k => s.code[k]?) = some w →
      ws.flatten.length ≤ s.params.bitCap → s.params.bitCap < ws.flatten.length + w.length →
      exec .encode s = errWith 4 (natWord u.length) s)

/-- 43_codec.md R152, 60_exceptions.md R226, 00_scope.md R5: DECODE never fails, whatever BITS and the table hold, and the
symbols and the tail together are no longer than BITS. -/
def Obligations.DecodeNeverFails : Prop :=
  ∀ s : State, ∃ out tail, exec .decode s = okWith (natWord out.length) { s with dst := out, tail := tail } ∧
    out.length + tail ≤ s.bits.length

/-- 43_codec.md R153: what DECODE does for no entry, for one, and, for more, that it walks the tree. -/
def Obligations.DecodeWalksTheTree : Prop :=
  ∀ s : State, Inv s →
    ∃ out tail, exec .decode s = okWith (natWord out.length) { s with dst := out, tail := tail } ∧
      (s.ft = [] → out = [] ∧ tail = s.bits.length) ∧
      (∀ e, s.ft = [e] → out = List.replicate (s.bits.findIdx id) e.sym ∧
        tail = s.bits.length - s.bits.findIdx id) ∧
      (2 ≤ s.ft.length → (out, tail) = treeDecode s.node [] s.root 0 s.bits ∧ tail ≤ s.maxlen - 1)

/-- 43_codec.md R154: after a BUILD that succeeds, an ENCODE that succeeds and a DECODE, with nothing between that changes
SRC, BITS or the table, DST is SRC and TAIL is 0. -/
def Obligations.EncodeThenDecodeIsIdentity : Prop :=
  ∀ (s t₁ u₁ t₂ u₂ : State) (v₁ v₂ : Word), Inv s →
    exec .build s = .next t₁ → t₁.pending = some { code := 0, data := v₁ } →
    u₁.src = t₁.src → u₁.ft = t₁.ft → u₁.code = t₁.code →
    exec .encode u₁ = .next t₂ → t₂.pending = some { code := 0, data := v₂ } →
    u₂.bits = t₂.bits → u₂.ft = t₂.ft → u₂.code = t₂.code →
    ∃ t₃, exec .decode u₂ = .next t₃ ∧ t₃.dst = s.src ∧ t₃.tail = 0

/-- 70_reset_and_hazards.md R255, 43_codec.md R150: the same for any SRC that the table in force encodes, whichever SRC
it was built from ("codeTable and input are supplied independently"). -/
def Obligations.EncodeThenDecodeWithOlderTable : Prop :=
  ∀ (s t u : State) (v : Word), Inv s →
    exec .encode s = .next t → t.pending = some { code := 0, data := v } →
    u.bits = t.bits → u.ft = s.ft → u.code = s.code →
    ∃ t₃, exec .decode u = .next t₃ ∧ t₃.dst = s.src ∧ t₃.tail = 0

/-! ## The noise injector -/

/-- 44_noise.md R170, R171: NOISE inverts exactly the bits whose draw is below P, takes one draw per bit, answers the
number inverted, and changes nothing else; the draws are any (log 3). -/
def Obligations.NoiseInvertsByItsDraws : Prop :=
  ∀ (p : Arg) (s : State), p.toNat ≤ 0x10000 → s.entropy.offers s.bits.length = true →
    ∃ b : Bits, b.length = s.bits.length ∧
      (∀ (i : Nat) (x : Bool), s.bits[i]? = some x → b[i]? = some (x ^^ decide ((s.entropy.draw i).toNat < p.toNat))) ∧
      exec (.noise p) s =
        okWith (natWord ((List.range s.bits.length).countP fun i => decide ((s.entropy.draw i).toNat < p.toNat)))
          { s with
            bits := b
            entropy := { fixed := s.entropy.fixed.drop s.bits.length
                         taken := s.entropy.taken + s.bits.length
                         left := s.entropy.left.map (· - s.bits.length) } }

/-- 44_noise.md R170, 70_reset_and_hazards.md R259: NOISE raises INVALID_PROBABILITY and takes no draw where P is above
0x10000, and waits, with no response, where the source does not offer a draw for every bit. That it waits in a field, with no draw
taken and nothing else changed, is the model's choice (log 4). -/
def Obligations.NoiseRaisesOrWaits : Prop :=
  ∀ (p : Arg) (s : State),
    (0x10000 < p.toNat → exec (.noise p) s = errWith 3 (p.setWidth 32) s) ∧
    (∀ n, p.toNat ≤ 0x10000 → s.entropy.left = some n → n < s.bits.length →
      exec (.noise p) s = .next { s with waiting := some p })

/-- 44_noise.md R170: P = 0 inverts no bit and P = 0x10000 inverts every bit, whatever the draws are. -/
def Obligations.NoiseAtItsEndPoints : Prop :=
  ∀ s : State, s.entropy.offers s.bits.length = true →
    (∃ e, exec (.noise 0) s = okWith 0 { s with entropy := e }) ∧
    (∃ e, exec (.noise 0x10000) s =
      okWith (natWord s.bits.length) { s with bits := s.bits.map (!·), entropy := e })

/-- 00_scope.md R7, 20_memory.md R69, 44_noise.md R171: no command but NOISE takes a draw. -/
def Obligations.OnlyNoiseTakesDraws : Prop :=
  ∀ (i : Instr) (s t : State), exec i s = .next t → (∀ p, i ≠ .noise p) → t.entropy = s.entropy

/-! ## The read commands -/

/-- 10_state.md R33, 45_read.md R180: RD.REG answers the value of the register map; BAD_INDEX from 16 on. -/
def Obligations.ReadRegisterMap : Prop :=
  ∀ (r : Arg) (s : State),
    (16 ≤ r.toNat → exec (.rdReg r) s = errWith 7 (r.setWidth 32) s) ∧
    (∀ v, ([0x48554631, s.status, s.errcode.setWidth 32, s.errinfo, natWord s.src.length, natWord s.bits.length,
        natWord s.dst.length, natWord s.ft.length, natWord s.node.length, natWord (s.node.length - 1),
        natWord (s.ft.map Entry.cnt).sum, natWord s.maxlen, natWord s.tail, natWord s.params.nSym,
        natWord s.params.srcCap, natWord s.params.bitCap] : List Word)[r.toNat]? = some v →
      exec (.rdReg r) s = okWith v s)

/-- 10_state.md R32: STATUS has BUILT in bit 0, ERR in bit 1, and 0 in every other bit. -/
def Obligations.StatusHasTwoFlags : Prop :=
  ∀ s : State,
    (s.status.getLsbD 0 = true ↔ 1 ≤ s.ft.length) ∧ (s.status.getLsbD 1 = true ↔ s.errcode ≠ 0) ∧
    ∀ i, 2 ≤ i → s.status.getLsbD i = false

/-- 45_read.md R181, R183: RD.SRC and RD.DST answer the symbol at the index, or raise BAD_INDEX. -/
def Obligations.ReadSymbolBuffers : Prop :=
  ∀ (i : Arg) (s : State),
    (s.src.length ≤ i.toNat → exec (.rdSrc i) s = errWith 7 (i.setWidth 32) s) ∧
    (∀ c, s.src[i.toNat]? = some c → exec (.rdSrc i) s = okWith (natWord c.val) s) ∧
    (s.dst.length ≤ i.toNat → exec (.rdDst i) s = errWith 7 (i.setWidth 32) s) ∧
    (∀ c, s.dst[i.toNat]? = some c → exec (.rdDst i) s = okWith (natWord c.val) s)

/-- 45_read.md R182, 20_memory.md R61: RD.BITS answers the 32 bits from 32j on, the first in bit 31, 0 beyond the end of
BITS, or raises BAD_INDEX. -/
def Obligations.ReadBitsPacksMostSignificantFirst : Prop :=
  ∀ (j : Arg) (s : State),
    (s.bits.length ≤ 32 * j.toNat → exec (.rdBits j) s = errWith 7 (j.setWidth 32) s) ∧
    (32 * j.toNat < s.bits.length →
      ∃ w : Word, exec (.rdBits j) s = okWith w s ∧
        ∀ t, t < 32 → w.getLsbD (31 - t) = s.bits.getD (32 * j.toNat + t) false)

/-- 45_read.md R184, R185: RD.FSYM and RD.FCNT answer the entry's symbol and count, or raise BAD_INDEX. -/
def Obligations.ReadFrequencyTable : Prop :=
  ∀ (k : Arg) (s : State),
    (s.ft.length ≤ k.toNat → exec (.rdFsym k) s = errWith 7 (k.setWidth 32) s ∧
      exec (.rdFcnt k) s = errWith 7 (k.setWidth 32) s) ∧
    (∀ e, s.ft[k.toNat]? = some e → exec (.rdFsym k) s = okWith (natWord e.sym.val) s ∧
      exec (.rdFcnt k) s = okWith (natWord e.cnt) s)

/-- 45_read.md R186, R187, 20_memory.md R62: RD.CLEN and RD.CBITS answer an entry's codeword length and a 32-bit chunk of
its codeword, or raise BAD_INDEX. The premise rules out the states that 10_state.md R35 says no run reaches. -/
def Obligations.ReadCodewords : Prop :=
  ∀ (s : State), s.code.length = s.ft.length →
    (∀ k : Arg, s.ft.length ≤ k.toNat → exec (.rdClen k) s = errWith 7 (k.setWidth 32) s) ∧
    (∀ (k : Arg) (c : Bits), s.code[k.toNat]? = some c → exec (.rdClen k) s = okWith (natWord c.length) s) ∧
    (∀ (k : BitVec 14) (j : BitVec 8), s.ft.length ≤ k.toNat →
      exec (.rdCbits k j) s = errWith 7 ((j ++ k).setWidth 32) s) ∧
    (∀ (k : BitVec 14) (j : BitVec 8) (c : Bits), s.code[k.toNat]? = some c → c.length ≤ 32 * j.toNat →
      exec (.rdCbits k j) s = errWith 7 ((j ++ k).setWidth 32) s) ∧
    (∀ (k : BitVec 14) (j : BitVec 8) (c : Bits), s.code[k.toNat]? = some c → 32 * j.toNat < c.length →
      ∃ w : Word, exec (.rdCbits k j) s = okWith w s ∧
        ∀ t, t < 32 → w.getLsbD (31 - t) = c.getD (32 * j.toNat + t) false)

/-- 45_read.md R188, 43_codec.md R151: RD.COF answers the index of the symbol's entry, and raises UNKNOWN_SYMBOL for a
symbol in no entry and for a value that is no symbol. The premise is the invariant of 10_state.md R25. -/
def Obligations.ReadEntryOfSymbol : Prop :=
  ∀ (a : Arg) (s : State), (s.ft.map Entry.sym).Nodup →
    (∀ (k : Nat) (e : Entry), s.ft[k]? = some e → e.sym.val = a.toNat →
      exec (.rdCof a) s = okWith (natWord k) s) ∧
    ((∀ e ∈ s.ft, e.sym.val ≠ a.toNat) → exec (.rdCof a) s = errWith 2 (a.setWidth 32) s)

/-- 45_read.md R189 to R192: RD.NKIND, RD.NW, RD.NL and RD.NR answer what a leaf and an internal node hold, or raise
BAD_INDEX. -/
def Obligations.ReadTreeNodes : Prop :=
  ∀ (x : Arg) (s : State),
    (s.node.length ≤ x.toNat →
      exec (.rdNkind x) s = errWith 7 (x.setWidth 32) s ∧ exec (.rdNw x) s = errWith 7 (x.setWidth 32) s ∧
      exec (.rdNl x) s = errWith 7 (x.setWidth 32) s ∧ exec (.rdNr x) s = errWith 7 (x.setWidth 32) s) ∧
    (∀ c w, s.node[x.toNat]? = some (Node.leaf c w) →
      exec (.rdNkind x) s = okWith (0x80000000 ||| natWord c.val) s ∧ exec (.rdNw x) s = okWith (natWord w) s ∧
      exec (.rdNl x) s = okWith 0xFFFFFFFF s ∧ exec (.rdNr x) s = okWith 0xFFFFFFFF s) ∧
    (∀ w l r, s.node[x.toNat]? = some (Node.internal w l r) →
      exec (.rdNkind x) s = okWith 0 s ∧ exec (.rdNw x) s = okWith (natWord w) s ∧
      exec (.rdNl x) s = okWith (natWord l) s ∧ exec (.rdNr x) s = okWith (natWord r) s)

/-- 20_memory.md R67: a read changes at most PENDING where it succeeds, and at most the error record besides where it
fails. -/
def Obligations.ReadsHaveNoSideEffect : Prop :=
  ∀ (i : Instr) (s t : State), isRead i = true → exec i s = .next t →
    (∃ v, t = { s with pending := some { code := 0, data := v } }) ∨
    (∃ c info, c ≠ 0 ∧ t = { s with errcode := c, errinfo := info, pending := some { code := c, data := 0 } })

/-- 20_memory.md R67: a read, BUILD, ENCODE and DECODE repeated with no other command between give the same response and
the same state. -/
def Obligations.RepeatedCommandChangesNothingMore : Prop :=
  ∀ (i : Instr) (s t : State), repeatable i = true → exec i s = .next t → exec i t = .next t

/-! ## Errors and what commands write -/

/-- 60_exceptions.md R224, R220: a failed command writes nothing but ERRCODE, ERRINFO and PENDING, and the record and the
response carry the same code: of a command as such, and of any word the block accepts, an illegal one too. -/
def Obligations.FailedCommandWritesOnlyErrorRecord : Prop :=
  (∀ (i : Instr) (s t : State) (r : Response), Ready s → exec i s = .next t → t.pending = some r → r.code ≠ 0 →
    ∃ info, t = { s with errcode := r.code, errinfo := info, pending := some { code := r.code, data := 0 } }) ∧
  (∀ (s t : State) (w : Word) (rest : List Word) (r : Response), Ready s → s.offered = w :: rest → step s = .next t →
    t.pending = some r → r.code ≠ 0 →
    ∃ info, t = { s with
      errcode := r.code, errinfo := info, pending := some { code := r.code, data := 0 }, offered := rest })

/-- 60_exceptions.md R221: each command answers only 0 or the codes of the errors it can raise. -/
def Obligations.ResponseCodesOfCommands : Prop :=
  ∀ (i : Instr) (s t : State) (r : Response), Ready s → exec i s = .next t → t.pending = some r →
    r.code = 0 ∨ ∃ e ∈ mayRaise i, r.code = e.code

/-- 10_state.md R42: on success a command writes at most its row of the table, on failure at most ERRCODE and ERRINFO,
and every command that ends sets PENDING. Two clauses are the model's own beside that table: NOISE moves the model's entropy
source on by the draws it takes (44_noise.md R171; log 3), and a NOISE that waits has written nothing but that it waits
(70_reset_and_hazards.md R259; log 4). -/
def Obligations.CommandsWriteOnlyTheirRow : Prop :=
  ∀ (i : Instr) (s t : State), Ready s → exec i s = .next t →
    (∃ r, t.pending = some r ∧
      ((r.code = 0 ∧ Writes i s { t with pending := none }) ∨
       (r.code ≠ 0 ∧ t = { s with errcode := t.errcode, errinfo := t.errinfo, pending := some r }))) ∨
    (∃ p, i = .noise p ∧ t = { s with waiting := some p })

/-- 10_state.md R31, 60_exceptions.md R225, 70_reset_and_hazards.md R260: a successful command leaves the error record,
but for a CLEAR whose mask bit 4 is set, which clears it. -/
def Obligations.ErrorRecordIsSticky : Prop :=
  ∀ (i : Instr) (s t : State) (v : Word), Ready s → exec i s = .next t → t.pending = some { code := 0, data := v } →
    ((∀ mask, i = .clear mask → mask.getLsbD 4 = false) → t.errcode = s.errcode ∧ t.errinfo = s.errinfo) ∧
    (∀ mask, i = .clear mask → mask.getLsbD 4 = true → t.errcode = 0 ∧ t.errinfo = 0)

/-- 00_scope.md R7: what a command does depends on the block's state, the command and the draws alone: two states that
agree on the components a command can read, and whose sources answer the same first draws, give the same response and
agree after it. What is left of the two sources may differ. That both wait or neither does speaks of the model's waiting
field (log 4). -/
def Obligations.CommandDependsOnStateAndDrawsAlone : Prop :=
  ∀ (i : Instr) (s t s' : State), Ready s → Ready t → SameBlock s t →
    s.entropy.offers s.bits.length = t.entropy.offers t.bits.length →
    (∀ k, k < s.bits.length → s.entropy.draw k = t.entropy.draw k) →
    exec i s = .next s' →
    ∃ t', exec i t = .next t' ∧ SameBlock s' t' ∧ s'.pending = t'.pending ∧ s'.waiting = t'.waiting

/-! ## Invariants -/

/-- 10_state.md R41, R35, 00_scope.md R4: the state after reset meets the invariant, whatever the legal parameters, the
entropy source and the host are. -/
def Obligations.ResetMeetsInvariant : Prop :=
  Inv State.reset ∧
  ∀ (p : Params) (e : Entropy) (offered : List Word) (inputs : List Input), p.Legal →
    Inv (startState p e offered inputs)

/-- 10_state.md R35: every step keeps the invariant. -/
def Obligations.StepKeepsInvariant : Prop :=
  ∀ s t : State, Inv s → step s = .next t → Inv t

/-- 60_exceptions.md R220, 30_encoding.md R85: from a state that meets the invariant no step stops: there is no fault and
no refusal, whatever word is offered. -/
def Obligations.StepNeverStops : Prop :=
  ∀ s : State, Inv s → ∃ t, step s = .next t

/-- 10_state.md R35: every reachable state satisfies the four invariants. -/
def Obligations.ReachableStatesMeetR35 : Prop :=
  ∀ s : State, Reachable s → RuleR35 s

/-- 10_state.md R34, R33: no step changes the parameters, so the hardwired registers always read as they did. -/
def Obligations.HardwiredRegistersNeverChange : Prop :=
  ∀ s t : State, step s = .next t →
    t.params = s.params ∧ ∀ r : Nat, r = 0 ∨ r = 13 ∨ r = 14 ∨ r = 15 → regValue t r = regValue s r
end

