-- ==== Sys2Proof/Laws/Queue.lean ====
section
/-! SUPPORT. The priority queue (spec 42_build.md R122): `PopMin` takes the one least key and leaves the others. -/

namespace Sys2Proof.Machine

theorem Key.before_iff (a b : Key) : Key.before a b = true ↔ a.1 < b.1 ∨ (a.1 = b.1 ∧ a.2 < b.2) := by
  simp [Key.before]

/-- The key order is transitive, and total up to equality. -/
theorem Key.before_trans {a b c : Key} (h₁ : Key.before a b = true) (h₂ : Key.before b c = true) :
    Key.before a c = true := by
  rw [Key.before_iff] at *; omega

theorem Key.before_irrefl (a : Key) : Key.before a a = false := by
  rw [Bool.eq_false_iff]; intro h; rw [Key.before_iff] at h; omega

theorem Key.eq_or_before_of_not_before {a b : Key} (h : Key.before a b = false) :
    b = a ∨ Key.before b a = true := by
  rw [Bool.eq_false_iff, Ne, Key.before_iff] at h
  rw [Key.before_iff, Prod.ext_iff]; omega

theorem leastKey_mem (m : Key) (ks : List Key) : leastKey m ks ∈ m :: ks := by
  induction ks generalizing m with
  | nil => simp [leastKey]
  | cons k rest ih =>
    have h := ih (if Key.before k m then k else m)
    rw [leastKey]
    split at h <;> rename_i hk <;> simp only [hk, if_true] <;> simp only [List.mem_cons] at h ⊢ <;> tauto

theorem leastKey_le (m : Key) (ks : List Key) :
    ∀ k ∈ m :: ks, k = leastKey m ks ∨ Key.before (leastKey m ks) k = true := by
  induction ks generalizing m with
  | nil => simp [leastKey]
  | cons k rest ih =>
    have h := ih (if Key.before k m then k else m)
    rw [leastKey]
    intro x hx
    simp only [List.mem_cons] at hx h
    cases hk : Key.before k m with
    | true =>
      simp only [hk, if_true] at h ⊢
      rcases hx with rfl | rfl | hx
      · rcases h k (.inl rfl) with e | hb
        · right; rw [← e]; exact hk
        · right; exact Key.before_trans hb hk
      · exact h x (.inl rfl)
      · exact h x (.inr hx)
    | false =>
      simp only [hk, Bool.false_eq_true, if_false] at h ⊢
      rcases hx with rfl | rfl | hx
      · exact h x (.inl rfl)
      · rcases Key.eq_or_before_of_not_before hk with e | hb
        · rw [← e]; exact h m (.inl rfl)
        · rcases h m (.inl rfl) with e' | hb'
          · right; rw [← e']; exact hb
          · right; exact Key.before_trans hb' hb
      · exact h x (.inr hx)

theorem popMin_eq_none {q : List Key} : popMin q = none ↔ q = [] := by
  cases q <;> simp [popMin]

/-- What `PopMin` does: the key is a member and the least one, and the queue left is the rest. -/
theorem popMin_spec {q q' : List Key} {k : Key} (h : popMin q = some (k, q')) :
    k ∈ q ∧ (∀ x ∈ q, x = k ∨ Key.before k x = true) ∧ q' = q.erase k := by
  cases q with
  | nil => simp [popMin] at h
  | cons a rest =>
    simp only [popMin, Option.some.injEq, Prod.mk.injEq] at h
    obtain ⟨rfl, rfl⟩ := h
    exact ⟨leastKey_mem a rest, leastKey_le a rest, rfl⟩

theorem popMin_perm {q q' : List Key} {k : Key} (h : popMin q = some (k, q')) : q.Perm (k :: q') := by
  obtain ⟨hm, -, rfl⟩ := popMin_spec h
  exact List.perm_cons_erase hm

theorem popMin_length {q q' : List Key} {k : Key} (h : popMin q = some (k, q')) : q.length = q'.length + 1 := by
  simpa using (popMin_perm h).length_eq

end Sys2Proof.Machine
end

