-- ==== Sys2Proof/Laws/Tree.lean ====
section
/-! SUPPORT. The tree builder (spec 42_build.md R122, R123): the invariant of the merge loop, and what it says of the
finished tree. -/

namespace Sys2Proof.Machine

theorem isChild_append {node : List Node} {nd : Node} {y z : Nat} (h : z < node.length) :
    IsChild (node ++ [nd]) y z ↔ IsChild node y z := by
  simp only [IsChild, List.getElem?_append_left h]

theorem isChild_append_last {node : List Node} {w l r y : Nat} :
    IsChild (node ++ [Node.internal w l r]) y node.length ↔ y = l ∨ y = r := by
  simp [IsChild]

theorem isChild_lt_length {node : List Node} {y z : Nat} (h : IsChild node y z) : z < node.length := by
  obtain ⟨w, l, r, hn, -⟩ := h
  exact (List.getElem?_eq_some_iff.1 hn).1

theorem inQueueAt_append {node : List Node} {nd : Node} {y x : Nat} (h : x ≤ node.length) :
    InQueueAt (node ++ [nd]) y x ↔ InQueueAt node y x := by
  unfold InQueueAt
  refine and_congr_right fun _ => forall_congr' fun z => imp_congr_right fun hz => ?_
  rw [isChild_append (by omega)]

theorem keyOf_append {node : List Node} {nd : Node} {x : Nat} (h : x < node.length) :
    keyOf (node ++ [nd]) x = keyOf node x := by
  simp only [keyOf, List.getElem?_append_left h]

theorem keyOf_append_last {node : List Node} {w l r : Nat} :
    keyOf (node ++ [Node.internal w l r]) node.length = (w, node.length) := by
  simp [keyOf, Node.weight]

/-- What a tree arena with its queue satisfies between two rounds of the merge loop. -/
structure Arena (ft : List Entry) (node : List Node) (q : List Key) : Prop where
  len        : node.length + q.length = 2 * ft.length
  ge         : ft.length ≤ node.length
  leaves     : ∀ (k : Nat) (e : Entry), ft[k]? = some e → node[k]? = some (Node.leaf e.sym e.cnt)
  inner      : ∀ x, ft.length ≤ x → x < node.length → ∃ w l r, node[x]? = some (Node.internal w l r)
  keys       : ∀ k ∈ q, k.2 < node.length ∧ keyOf node k.2 = k
  nodup      : (q.map Prod.snd).Nodup
  orphan     : ∀ y, y ∈ q.map Prod.snd ↔ InQueueAt node y node.length
  child_lt   : ∀ y x, IsChild node y x → y < x
  one_parent : ∀ y x x', IsChild node y x → IsChild node y x' → x = x'
  sums       : ∀ (x w l r : Nat), node[x]? = some (Node.internal w l r) →
    l ≠ r ∧ w = (keyOf node l).1 + (keyOf node r).1
  greedy     : ∀ (x w l r : Nat), node[x]? = some (Node.internal w l r) →
    InQueueAt node l x ∧ InQueueAt node r x ∧ Key.before (keyOf node l) (keyOf node r) = true ∧
    ∀ y, InQueueAt node y x → y ≠ l → y ≠ r → Key.before (keyOf node r) (keyOf node y) = true
  total      : (q.map Prod.fst).sum = totalCount ft

theorem leavesOf_getElem? (ft : List Entry) (k : Nat) :
    (leavesOf ft)[k]? = ft[k]?.map fun e => Node.leaf e.sym e.cnt := by
  simp [leavesOf]

theorem leavesOf_no_child (ft : List Entry) (y x : Nat) : ¬ IsChild (leavesOf ft) y x := by
  rintro ⟨w, l, r, h, -⟩
  rw [leavesOf_getElem?] at h
  cases hx : ft[x]? <;> simp [hx] at h

theorem leafKeys_mem {ft : List Entry} {k : Key} :
    k ∈ leafKeys ft ↔ ∃ e, ft[k.2]? = some e ∧ k.1 = e.cnt := by
  obtain ⟨w, x⟩ := k
  simp only [leafKeys, List.mem_map, Prod.exists, List.mem_zipIdx_iff_getElem?, Prod.mk.injEq]
  constructor
  · rintro ⟨e, i, h, rfl, rfl⟩; exact ⟨e, h, rfl⟩
  · rintro ⟨e, h, rfl⟩; exact ⟨e, x, h, rfl, rfl⟩

theorem leafKeys_snd (ft : List Entry) : (leafKeys ft).map Prod.snd = List.range ft.length := by
  rw [leafKeys, List.map_map]
  change ft.zipIdx.map Prod.snd = _
  rw [List.zipIdx_map_snd, List.range_eq_range']

theorem leafKeys_fst (ft : List Entry) : (leafKeys ft).map Prod.fst = ft.map Entry.cnt := by
  rw [leafKeys, List.map_map]
  change ft.zipIdx.map (Entry.cnt ∘ Prod.fst) = _
  rw [← List.map_map, List.zipIdx_map_fst]

/-- The invariant holds before the first round. -/
theorem arena_start (ft : List Entry) : Arena ft (leavesOf ft) (leafKeys ft) where
  len := by simp [leavesOf, leafKeys]; omega
  ge := by simp [leavesOf]
  leaves k e h := by rw [leavesOf_getElem?, h]; rfl
  inner x h₁ h₂ := by simp [leavesOf] at h₂; omega
  keys k h := by
    obtain ⟨e, he, hk⟩ := leafKeys_mem.1 h
    refine ⟨?_, ?_⟩
    · simpa [leavesOf] using (List.getElem?_eq_some_iff.1 he).1
    · simp [keyOf, leavesOf_getElem?, he, Node.weight, Prod.ext_iff, hk]
  nodup := by rw [leafKeys_snd]; exact List.nodup_range
  orphan y := by
    have hl : (leavesOf ft).length = ft.length := by simp [leavesOf]
    rw [leafKeys_snd, List.mem_range, InQueueAt, hl]
    exact ⟨fun h => ⟨h, fun z _ => leavesOf_no_child ft y z⟩, fun h => h.1⟩
  child_lt y x h := (leavesOf_no_child _ _ _ h).elim
  one_parent y x x' h := (leavesOf_no_child _ _ _ h).elim
  sums x w l r h := (leavesOf_no_child ft l x ⟨w, l, r, h, .inl rfl⟩).elim
  greedy x w l r h := (leavesOf_no_child ft l x ⟨w, l, r, h, .inl rfl⟩).elim
  total := by rw [leafKeys_fst]; rfl

/-- One round keeps the invariant. -/
theorem arena_round {ft : List Entry} {node : List Node} {q q₁ q₂ : List Key} {a b : Key}
    (h : Arena ft node q) (ha : popMin q = some (a, q₁)) (hb : popMin q₁ = some (b, q₂)) :
    Arena ft (node ++ [Node.internal (a.1 + b.1) a.2 b.2]) (q₂ ++ [(a.1 + b.1, node.length)]) := by
  have hp : q.Perm (a :: b :: q₂) := (popMin_perm ha).trans (List.Perm.cons a (popMin_perm hb))
  have hnd : ((a :: b :: q₂).map Prod.snd).Nodup := (hp.map Prod.snd).nodup_iff.1 h.nodup
  simp only [List.map_cons, List.nodup_cons, List.mem_cons, not_or] at hnd
  obtain ⟨⟨hab, ha₂⟩, hb₂, hq₂⟩ := hnd
  have ham : a ∈ q := (popMin_spec ha).1
  have hbm₁ : b ∈ q₁ := (popMin_spec hb).1
  have hbm : b ∈ q := (popMin_perm ha).mem_iff.2 (List.mem_cons_of_mem _ hbm₁)
  have hq₂m : ∀ k ∈ q₂, k ∈ q := fun k hk => hp.mem_iff.2 (by simp [hk])
  have hka := h.keys a ham
  have hkb := h.keys b hbm
  have horph : ∀ y, InQueueAt node y node.length ↔ y = a.2 ∨ y = b.2 ∨ y ∈ q₂.map Prod.snd := by
    intro y
    rw [← h.orphan, (hp.map Prod.snd).mem_iff]
    simp
  have hab' : Key.before a b = true := by
    rcases (popMin_spec ha).2.1 b hbm with e | hlt
    · exact absurd (congrArg Prod.snd e.symm) hab
    · exact hlt
  have hlast : ∀ y, IsChild (node ++ [Node.internal (a.1 + b.1) a.2 b.2]) y node.length ↔ y = a.2 ∨ y = b.2 :=
    fun y => isChild_append_last
  have hchild : ∀ y x, IsChild (node ++ [Node.internal (a.1 + b.1) a.2 b.2]) y x ↔
      IsChild node y x ∨ (x = node.length ∧ (y = a.2 ∨ y = b.2)) := by
    intro y x
    constructor
    · intro hc
      have hx := isChild_lt_length hc
      simp only [List.length_append, List.length_cons, List.length_nil] at hx
      rcases Nat.lt_or_ge x node.length with hlt | hge
      · exact .inl ((isChild_append hlt).1 hc)
      · obtain rfl : x = node.length := by omega
        exact .inr ⟨rfl, (hlast y).1 hc⟩
    · rintro (hc | ⟨rfl, hy⟩)
      · exact (isChild_append (isChild_lt_length hc)).2 hc
      · exact (hlast y).2 hy
  have hqa : InQueueAt node a.2 node.length := (horph _).2 (.inl rfl)
  have hqb : InQueueAt node b.2 node.length := (horph _).2 (.inr (.inl rfl))
  have hnew : ∀ (x w l r : Nat), (node ++ [Node.internal (a.1 + b.1) a.2 b.2])[x]? = some (Node.internal w l r) →
      (x < node.length ∧ node[x]? = some (Node.internal w l r)) ∨
      (x = node.length ∧ w = a.1 + b.1 ∧ l = a.2 ∧ r = b.2) := by
    intro x w l r hx
    rcases Nat.lt_trichotomy x node.length with hlt | rfl | hgt
    · rw [List.getElem?_append_left hlt] at hx; exact .inl ⟨hlt, hx⟩
    · simp at hx; exact .inr ⟨rfl, hx.1.symm, hx.2.1.symm, hx.2.2.symm⟩
    · rw [List.getElem?_eq_none (by simp; omega)] at hx; simp at hx
  refine ⟨?_, ?_, ?_, ?_, ?_, ?_, ?_, ?_, ?_, ?_, ?_, ?_⟩
  · have h₁ := popMin_length ha
    have h₂ := popMin_length hb
    have h₃ := h.len
    simp only [List.length_append, List.length_cons, List.length_nil]; omega
  · have := h.ge; simp only [List.length_append]; omega
  · intro k e he
    have := h.leaves k e he
    rw [List.getElem?_append_left (List.getElem?_eq_some_iff.1 this).1]; exact this
  · intro x h₁ h₂
    simp only [List.length_append, List.length_cons, List.length_nil] at h₂
    rcases Nat.lt_or_ge x node.length with hlt | hge
    · rw [List.getElem?_append_left hlt]; exact h.inner x h₁ hlt
    · obtain rfl : x = node.length := by omega
      exact ⟨a.1 + b.1, a.2, b.2, by simp⟩
  · intro k hk
    simp only [List.mem_append, List.mem_singleton] at hk
    rcases hk with hk | rfl
    · have := h.keys k (hq₂m k hk)
      refine ⟨by simp only [List.length_append]; omega, ?_⟩
      rw [keyOf_append this.1]; exact this.2
    · exact ⟨by simp, keyOf_append_last⟩
  · rw [List.map_append, List.nodup_append]
    refine ⟨hq₂, by simp, ?_⟩
    intro y hy z hz hyz
    obtain ⟨k, hk, rfl⟩ := List.mem_map.1 hy
    have := (h.keys k (hq₂m k hk)).1
    simp at hz; omega
  · intro y
    have hlen : (node ++ [Node.internal (a.1 + b.1) a.2 b.2]).length = node.length + 1 := by simp
    rw [hlen, InQueueAt]
    constructor
    · intro hy
      simp only [List.map_append, List.mem_append, List.map_cons, List.map_nil, List.mem_singleton] at hy
      rcases hy with hy | rfl
      · have hin := (horph y).2 (.inr (.inr hy))
        refine ⟨by have := hin.1; omega, fun z hz hc => ?_⟩
        rcases (hchild y z).1 hc with hc | ⟨-, rfl | rfl⟩
        · exact hin.2 z (isChild_lt_length hc) hc
        · exact ha₂ hy
        · exact hb₂ hy
      · refine ⟨by omega, fun z hz hc => ?_⟩
        rcases (hchild _ z).1 hc with hc | ⟨-, e | e⟩
        · have h₁ := h.child_lt _ _ hc; have h₂ := isChild_lt_length hc; omega
        · have := hka.1; omega
        · have := hkb.1; omega
    · rintro ⟨h₁, h₂⟩
      simp only [List.map_append, List.mem_append, List.map_cons, List.map_nil, List.mem_singleton]
      rcases Nat.lt_or_ge y node.length with hlt | hge
      · have hin : InQueueAt node y node.length :=
          ⟨hlt, fun z hz hc => h₂ z (by omega) ((hchild y z).2 (.inl hc))⟩
        rcases (horph y).1 hin with rfl | rfl | hy
        · exact (h₂ node.length (by omega) ((hlast _).2 (.inl rfl))).elim
        · exact (h₂ node.length (by omega) ((hlast _).2 (.inr rfl))).elim
        · exact .inl hy
      · exact .inr (by omega)
  · intro y x hc
    rcases (hchild y x).1 hc with hc | ⟨rfl, rfl | rfl⟩
    · exact h.child_lt _ _ hc
    · exact hka.1
    · exact hkb.1
  · intro y x x' hc hc'
    rcases (hchild y x).1 hc with hc | ⟨rfl, hy⟩ <;> rcases (hchild y x').1 hc' with hc' | ⟨rfl, hy'⟩
    · exact h.one_parent _ _ _ hc hc'
    · exfalso
      rcases hy' with rfl | rfl
      · exact hqa.2 x (isChild_lt_length hc) hc
      · exact hqb.2 x (isChild_lt_length hc) hc
    · exfalso
      rcases hy with rfl | rfl
      · exact hqa.2 x' (isChild_lt_length hc') hc'
      · exact hqb.2 x' (isChild_lt_length hc') hc'
    · rfl
  · intro x w l r hx
    rcases hnew x w l r hx with ⟨hlt, hx⟩ | ⟨rfl, rfl, rfl, rfl⟩
    · have hl := h.child_lt l x ⟨w, l, r, hx, .inl rfl⟩
      have hr := h.child_lt r x ⟨w, l, r, hx, .inr rfl⟩
      rw [keyOf_append (by omega), keyOf_append (by omega)]
      exact h.sums x w l r hx
    · rw [keyOf_append hka.1, keyOf_append hkb.1, hka.2, hkb.2]
      exact ⟨hab, rfl⟩
  · intro x w l r hx
    rcases hnew x w l r hx with ⟨hlt, hx⟩ | ⟨rfl, rfl, rfl, rfl⟩
    · have hl := h.child_lt l x ⟨w, l, r, hx, .inl rfl⟩
      have hr := h.child_lt r x ⟨w, l, r, hx, .inr rfl⟩
      obtain ⟨g₁, g₂, g₃, g₄⟩ := h.greedy x w l r hx
      have hle : x ≤ node.length := by omega
      rw [inQueueAt_append hle, inQueueAt_append hle, keyOf_append (by omega), keyOf_append (by omega)]
      refine ⟨g₁, g₂, g₃, fun y hy hyl hyr => ?_⟩
      rw [inQueueAt_append hle] at hy
      rw [keyOf_append (by have := hy.1; omega)]
      exact g₄ y hy hyl hyr
    · rw [inQueueAt_append le_rfl, inQueueAt_append le_rfl, keyOf_append hka.1, keyOf_append hkb.1, hka.2, hkb.2]
      refine ⟨hqa, hqb, hab', fun y hy hyl hyr => ?_⟩
      rw [inQueueAt_append le_rfl] at hy
      rw [keyOf_append hy.1]
      rcases (horph y).1 hy with e | e | hm
      · exact absurd e hyl
      · exact absurd e hyr
      · obtain ⟨k, hk, rfl⟩ := List.mem_map.1 hm
        rw [(h.keys k (hq₂m k hk)).2]
        have hk₁ : k ∈ q₁ := (popMin_perm hb).mem_iff.2 (List.mem_cons_of_mem _ hk)
        rcases (popMin_spec hb).2.1 k hk₁ with e | hlt
        · exact absurd (congrArg Prod.snd e) hyr
        · exact hlt
  · have hs := (hp.map Prod.fst).sum_eq
    have ht := h.total
    simp only [List.map_append, List.sum_append, List.map_cons, List.map_nil, List.sum_cons, List.sum_nil] at hs ⊢
    omega

/-- The loop keeps the invariant and, with fuel enough, ends with one member in the queue. -/
theorem mergeLoop_arena {ft : List Entry} (fuel : Nat) {node : List Node} {q : List Key}
    (h : Arena ft node q) (hf : q.length ≤ fuel + 1) (hq : 1 ≤ q.length) :
    Arena ft (mergeLoop fuel node q).1 (mergeLoop fuel node q).2 ∧ (mergeLoop fuel node q).2.length = 1 := by
  induction fuel generalizing node q with
  | zero => exact ⟨h, by simp only [mergeLoop]; omega⟩
  | succ fuel ih =>
    rw [mergeLoop]
    split
    · rename_i hn; rw [popMin_eq_none] at hn; simp [hn] at hq
    · rename_i a q₁ ha
      split
      · rename_i hn
        rw [popMin_eq_none] at hn
        exact ⟨h, by rw [popMin_length ha, hn]; rfl⟩
      · rename_i b q₂ hb
        have h₁ := popMin_length ha
        have h₂ := popMin_length hb
        exact ih (arena_round h ha hb) (by simp; omega) (by simp)

/-- The finished tree: the invariant with the root alone in the queue. -/
theorem tree_arena {ft : List Entry} (h : 1 ≤ ft.length) :
    ∃ w, Arena ft (tree ft) [(w, rootOf (tree ft))] := by
  have hk : (leafKeys ft).length = ft.length := by simp [leafKeys]
  obtain ⟨ha, hl⟩ := mergeLoop_arena ft.length (arena_start ft) (by omega) (by omega)
  obtain ⟨⟨w, x⟩, hx⟩ := List.length_eq_one_iff.1 hl
  rw [hx] at ha
  change Arena ft (tree ft) _ at ha
  have hlen := ha.len
  simp only [List.length_cons, List.length_nil] at hlen
  have hroot : InQueueAt (tree ft) (tree ft).length.pred (tree ft).length := by
    refine ⟨by simp only [Nat.pred_eq_sub_one]; omega, fun z hz hc => ?_⟩
    have := ha.child_lt _ _ hc
    simp only [Nat.pred_eq_sub_one] at this; omega
  have := (ha.orphan _).2 hroot
  simp only [List.map_cons, List.map_nil, List.mem_singleton, Nat.pred_eq_sub_one] at this
  refine ⟨w, ?_⟩
  rw [rootOf, this]
  exact ha

theorem tree_length {ft : List Entry} (h : 1 ≤ ft.length) : (tree ft).length = 2 * ft.length - 1 := by
  obtain ⟨w, ha⟩ := tree_arena h
  have := ha.len
  simp only [List.length_cons, List.length_nil] at this; omega

theorem tree_ne_nil {ft : List Entry} (h : 1 ≤ ft.length) : tree ft ≠ [] := by
  intro e
  have := tree_length h
  rw [e] at this; simp at this; omega

/-- Every node but the root has a parent. -/
theorem tree_parent {ft : List Entry} (h : 1 ≤ ft.length) {y : Nat} (hy : y < rootOf (tree ft)) :
    ∃ x, IsChild (tree ft) y x := by
  obtain ⟨w, ha⟩ := tree_arena h
  by_contra hn
  have hn' : ∀ x, ¬ IsChild (tree ft) y x := not_exists.1 hn
  have := (ha.orphan y).2 ⟨by rw [rootOf] at hy; omega, fun z _ => hn' z⟩
  simp only [List.map_cons, List.map_nil, List.mem_singleton] at this
  omega

theorem tree_root {ft : List Entry} (h : 2 ≤ ft.length) :
    ∃ w l r, (tree ft)[rootOf (tree ft)]? = some (Node.internal w l r) := by
  obtain ⟨w, ha⟩ := tree_arena (ft := ft) (by omega)
  have := tree_length (ft := ft) (by omega)
  exact ha.inner _ (by rw [rootOf]; omega) (by rw [rootOf]; omega)

theorem tree_leaf_iff {ft : List Entry} (h : 1 ≤ ft.length) {x : Nat} {c : Symbol} {w : Nat} :
    (tree ft)[x]? = some (Node.leaf c w) ↔ ft[x]? = some { sym := c, cnt := w } := by
  obtain ⟨v, ha⟩ := tree_arena h
  constructor
  · intro hx
    rcases Nat.lt_or_ge x ft.length with hlt | hge
    · have := ha.leaves x ft[x] (by simp [hlt])
      rw [hx] at this
      simp only [Option.some.injEq, Node.leaf.injEq] at this
      simp [hlt, this]
    · obtain ⟨w', l, r, hi⟩ := ha.inner x hge (List.getElem?_eq_some_iff.1 hx).1
      rw [hx] at hi; simp at hi
  · intro hx; exact ha.leaves x _ hx

theorem tree_internal_ge {ft : List Entry} (h : 1 ≤ ft.length) {x w l r : Nat}
    (hx : (tree ft)[x]? = some (Node.internal w l r)) : ft.length ≤ x := by
  obtain ⟨v, ha⟩ := tree_arena h
  by_contra hlt
  have := ha.leaves x ft[x] (by simp)
  rw [hx] at this; simp at this

end Sys2Proof.Machine
end

