-- ==== Sys2Proof/Laws/Codes.lean ====
section
/-! SUPPORT. The code generator (spec 42_build.md R124, R125): the codeword of an entry is the path from the root to its
leaf, and what follows for the code table (R127, 10_state.md R36). -/

namespace Sys2Proof.Machine

theorem follow_cons {node : List Node} {x w l r : Nat} (h : node[x]? = some (Node.internal w l r)) (b : Bool)
    (rest : Bits) : follow node x (b :: rest) = follow node (if b then r else l) rest := by
  simp only [follow, h]

theorem follow_cons_some {node : List Node} {x y : Nat} {b : Bool} {rest : Bits}
    (h : follow node x (b :: rest) = some y) :
    ∃ w l r, node[x]? = some (Node.internal w l r) ∧ follow node (if b then r else l) rest = some y := by
  rw [follow] at h
  split at h
  · rename_i w l r hx; exact ⟨w, l, r, hx, h⟩
  · simp at h

theorem follow_append (node : List Node) (x : Nat) (a b : Bits) :
    follow node x (a ++ b) = (follow node x a).bind fun y => follow node y b := by
  induction a generalizing x with
  | nil => rfl
  | cons c rest ih =>
    rw [List.cons_append, follow, follow]
    split
    · exact ih _
    · rfl

theorem follow_leaf {node : List Node} {x y : Nat} {c : Symbol} {w : Nat} {b : Bits}
    (h : node[x]? = some (Node.leaf c w)) (hf : follow node x b = some y) : b = [] := by
  cases b with
  | nil => rfl
  | cons a rest => obtain ⟨w', l, r, hx, -⟩ := follow_cons_some hf; rw [h] at hx; simp at hx

/-- The child that a bit leads to is a child of the node. -/
theorem isChild_of_bit {node : List Node} {x w l r : Nat} (h : node[x]? = some (Node.internal w l r)) (b : Bool) :
    IsChild node (if b then r else l) x := ⟨w, l, r, h, by cases b <;> simp⟩

/-- A path goes down: the index falls by at least one on every edge. -/
theorem follow_add_length_le {node : List Node} (hc : ∀ y x, IsChild node y x → y < x) {x y : Nat} {b : Bits}
    (h : follow node x b = some y) : y + b.length ≤ x := by
  induction b generalizing x with
  | nil => simp only [follow, Option.some.injEq] at h; simp [h]
  | cons a rest ih =>
    obtain ⟨w, l, r, hx, hf⟩ := follow_cons_some h
    have h₁ := ih hf
    have h₂ := hc _ _ (isChild_of_bit hx a)
    simp only [List.length_cons]; omega

theorem follow_snoc {node : List Node} {x y : Nat} {b : Bits} {c : Bool} (h : follow node x (b ++ [c]) = some y) :
    ∃ z w l r, follow node x b = some z ∧ node[z]? = some (Node.internal w l r) ∧ (if c then r else l) = y := by
  rw [follow_append] at h
  obtain ⟨z, hz, hf⟩ := Option.bind_eq_some_iff.1 h
  obtain ⟨w, l, r, hx, hf⟩ := follow_cons_some hf
  simp only [follow, Option.some.injEq] at hf
  exact ⟨z, w, l, r, hz, hx, hf⟩

/-- Two paths from one node to one node are the same: no node has two parents, and no parent has one child twice. -/
theorem follow_unique {node : List Node} (hc : ∀ y x, IsChild node y x → y < x)
    (hp : ∀ y x x', IsChild node y x → IsChild node y x' → x = x')
    (hd : ∀ (x w l r : Nat), node[x]? = some (Node.internal w l r) → l ≠ r)
    {x y : Nat} {b b' : Bits} (h : follow node x b = some y) (h' : follow node x b' = some y) : b = b' := by
  induction b using List.reverseRecOn generalizing y b' with
  | nil =>
    simp only [follow, Option.some.injEq] at h
    have := follow_add_length_le hc h'
    exact (List.length_eq_zero_iff.1 (by omega)).symm
  | append_singleton b c ih =>
    rcases List.eq_nil_or_concat b' with rfl | ⟨a, c', rfl⟩
    · simp only [follow, Option.some.injEq] at h'
      have := follow_add_length_le hc h
      simp only [List.length_append, List.length_cons, List.length_nil] at this; omega
    · rw [List.concat_eq_append] at h' ⊢
      obtain ⟨z, w, l, r, hz, hn, hy⟩ := follow_snoc h
      obtain ⟨z', w', l', r', hz', hn', hy'⟩ := follow_snoc h'
      have : z = z' := hp y z z' (hy ▸ isChild_of_bit hn c) (hy' ▸ isChild_of_bit hn' c')
      subst this
      rw [hn] at hn'
      simp only [Option.some.injEq, Node.internal.injEq] at hn'
      obtain ⟨-, rfl, rfl⟩ := hn'
      rw [ih hz hz']
      have hlr := hd z w l r hn
      cases c <;> cases c' <;> simp_all

theorem walk_length (node : List Node) (fuel x : Nat) (p : Bits) (code : List Bits) :
    (walk node fuel x p code).length = code.length := by
  induction fuel generalizing x p code with
  | zero => rfl
  | succ fuel ih =>
    rw [walk]
    split
    · rfl
    · simp
    · rw [ih, ih]

/-- What the walk writes: the path of each leaf below `x`, behind `p`; and nothing else. -/
theorem walk_getElem? {node : List Node} (hc : ∀ y x, IsChild node y x → y < x)
    (hp : ∀ y x x', IsChild node y x → IsChild node y x' → x = x')
    (hd : ∀ (x w l r : Nat), node[x]? = some (Node.internal w l r) → l ≠ r)
    (fuel : Nat) {x : Nat} (hx : x < fuel) (p : Bits) (code : List Bits) {k : Nat} (hk : k < code.length) :
    (∀ b c w, follow node x b = some k → node[k]? = some (Node.leaf c w) →
      (walk node fuel x p code)[k]? = some (p ++ b)) ∧
    ((∀ b c w, follow node x b = some k → node[k]? ≠ some (Node.leaf c w)) →
      (walk node fuel x p code)[k]? = code[k]?) := by
  induction fuel generalizing x p code with
  | zero => omega
  | succ fuel ih =>
    rw [walk]
    cases hn : node[x]? with
    | none =>
      refine ⟨fun b c w hf hl => ?_, fun _ => rfl⟩
      cases b with
      | nil => simp only [follow, Option.some.injEq] at hf; rw [hf] at hn; rw [hn] at hl; simp at hl
      | cons a rest => obtain ⟨w', l, r, h, -⟩ := follow_cons_some hf; rw [hn] at h; simp at h
    | some nd =>
      cases nd with
      | leaf c₀ w₀ =>
        refine ⟨fun b c w hf hl => ?_, fun h => ?_⟩
        · have hb := follow_leaf hn hf
          subst hb
          simp only [follow, Option.some.injEq] at hf
          subst hf
          simp [hk]
        · have : x ≠ k := fun e => h [] c₀ w₀ (by simp [follow, e]) (e ▸ hn)
          simp [List.getElem?_set_ne this]
      | internal w₀ l r =>
        have hl := hc l x ⟨w₀, l, r, hn, .inl rfl⟩
        have hr := hc r x ⟨w₀, l, r, hn, .inr rfl⟩
        have hlen : k < (walk node fuel l (p ++ [false]) code).length := by rw [walk_length]; exact hk
        obtain ⟨L₁, L₂⟩ := ih (by omega : l < fuel) (p ++ [false]) code hk
        obtain ⟨R₁, R₂⟩ := ih (by omega : r < fuel) (p ++ [true]) (walk node fuel l (p ++ [false]) code) hlen
        refine ⟨fun b c w hf hleaf => ?_, fun h => ?_⟩
        · cases b with
          | nil =>
            simp only [follow, Option.some.injEq] at hf; rw [hf] at hn; rw [hn] at hleaf; simp at hleaf
          | cons a rest =>
            rw [follow_cons hn] at hf
            cases a with
            | true =>
              rw [R₁ rest c w hf hleaf]; simp
            | false =>
              have : ∀ b c w, follow node r b = some k → node[k]? ≠ some (Node.leaf c w) := by
                intro b' c' w' hf' _
                have h₁ : follow node x (true :: b') = some k := by rw [follow_cons hn]; exact hf'
                have h₂ : follow node x (false :: rest) = some k := by rw [follow_cons hn]; exact hf
                have := follow_unique hc hp hd h₁ h₂
                simp at this
              rw [R₂ this, L₁ rest c w hf hleaf]; simp
        · rw [R₂ fun b c w hf => h (true :: b) c w (by rw [follow_cons hn]; exact hf),
            L₂ fun b c w hf => h (false :: b) c w (by rw [follow_cons hn]; exact hf)]

/-- Every node of the tree is reached from the root. -/
theorem tree_reached {ft : List Entry} (h : 1 ≤ ft.length) {y : Nat} (hy : y ≤ rootOf (tree ft)) :
    ∃ b, follow (tree ft) (rootOf (tree ft)) b = some y := by
  obtain ⟨w, ha⟩ := tree_arena h
  induction hd : rootOf (tree ft) - y using Nat.strongRecOn generalizing y with
  | ind d ih =>
    rcases Nat.eq_or_lt_of_le hy with rfl | hlt
    · exact ⟨[], rfl⟩
    · obtain ⟨x, hx⟩ := tree_parent h hlt
      have hyx := ha.child_lt _ _ hx
      have hxl := isChild_lt_length hx
      have hxr : x ≤ rootOf (tree ft) := by rw [rootOf]; omega
      obtain ⟨b, hb⟩ := ih (rootOf (tree ft) - x) (by omega) hxr rfl
      obtain ⟨w, l, r, hn, hlr⟩ := hx
      rcases hlr with rfl | rfl
      · exact ⟨b ++ [false], by rw [follow_append, hb]; simp [follow, hn]⟩
      · exact ⟨b ++ [true], by rw [follow_append, hb]; simp [follow, hn]⟩

theorem codes_length {ft : List Entry} : (codes ft (tree ft) (rootOf (tree ft))).length = ft.length := by
  rw [codes]
  split
  · simp [*]
  · rw [walk_length]; simp

theorem tree_distinct_children {ft : List Entry} (h : 1 ≤ ft.length) :
    ∀ (x w l r : Nat), (tree ft)[x]? = some (Node.internal w l r) → l ≠ r := by
  obtain ⟨w, ha⟩ := tree_arena h
  exact fun x w l r hx => (ha.sums x w l r hx).1

theorem tree_child_lt {ft : List Entry} (h : 1 ≤ ft.length) : ∀ y x, IsChild (tree ft) y x → y < x := by
  obtain ⟨w, ha⟩ := tree_arena h
  exact ha.child_lt

theorem tree_one_parent {ft : List Entry} (h : 1 ≤ ft.length) :
    ∀ y x x', IsChild (tree ft) y x → IsChild (tree ft) y x' → x = x' := by
  obtain ⟨w, ha⟩ := tree_arena h
  exact ha.one_parent

/-- The codeword of an entry is the path from the root to its leaf (42_build.md R125). -/
theorem codes_follow {ft : List Entry} (h : 2 ≤ ft.length) {k : Nat} {b : Bits}
    (hb : (codes ft (tree ft) (rootOf (tree ft)))[k]? = some b) :
    follow (tree ft) (rootOf (tree ft)) b = some k := by
  have h₁ : 1 ≤ ft.length := by omega
  have hk : k < ft.length := by
    have := (List.getElem?_eq_some_iff.1 hb).1; rwa [codes_length] at this
  have hlen := tree_length h₁
  obtain ⟨p, hp⟩ := tree_reached h₁ (y := k) (by rw [rootOf]; omega)
  have hleaf : (tree ft)[k]? = some (Node.leaf ft[k].sym ft[k].cnt) := (tree_leaf_iff h₁).2 (by simp [hk])
  rw [codes, if_neg (by omega)] at hb
  have := (walk_getElem? (tree_child_lt h₁) (tree_one_parent h₁) (tree_distinct_children h₁) (tree ft).length
    (x := rootOf (tree ft)) (by rw [rootOf]; omega) [] (List.replicate ft.length []) (k := k) (by simpa using hk)).1
    p _ _ hp hleaf
  rw [this] at hb
  simp only [List.nil_append, Option.some.injEq] at hb
  rw [← hb]; exact hp

/-- A path from the root to a leaf is that entry's codeword. -/
theorem codes_of_follow {ft : List Entry} (h : 2 ≤ ft.length) {k : Nat} {b : Bits} (hk : k < ft.length)
    (hb : follow (tree ft) (rootOf (tree ft)) b = some k) :
    (codes ft (tree ft) (rootOf (tree ft)))[k]? = some b := by
  have h₁ : 1 ≤ ft.length := by omega
  have hlt : k < (codes ft (tree ft) (rootOf (tree ft))).length := by rw [codes_length]; exact hk
  have hc := List.getElem?_eq_getElem hlt
  have := follow_unique (tree_child_lt h₁) (tree_one_parent h₁) (tree_distinct_children h₁) hb (codes_follow h hc)
  rw [hc, this]

/-- The table of one symbol has the codeword "0" (42_build.md R124). -/
theorem codes_single {ft : List Entry} (h : ft.length = 1) (node : List Node) (x : Nat) : codes ft node x = [[false]] :=
  if_pos h

/-- No codeword is a beginning of another (10_state.md R36). -/
theorem codes_prefixFree {ft : List Entry} (h : 1 ≤ ft.length) :
    PrefixFree (codes ft (tree ft) (rootOf (tree ft))) := by
  intro i j c d hij hc hd hp
  rcases Nat.eq_or_lt_of_le h with h₁ | h₂
  · rw [codes_single h₁.symm] at hc hd
    have hi := (List.getElem?_eq_some_iff.1 hc).1
    have hj := (List.getElem?_eq_some_iff.1 hd).1
    simp only [List.length_cons, List.length_nil] at hi hj; omega
  · obtain ⟨e, rfl⟩ := hp
    have hi := codes_follow h₂ hc
    have hj := codes_follow h₂ hd
    have hik : i < ft.length := by
      have := (List.getElem?_eq_some_iff.1 hc).1; rwa [codes_length] at this
    rw [follow_append, hi] at hj
    have hleaf : (tree ft)[i]? = some (Node.leaf ft[i].sym ft[i].cnt) := (tree_leaf_iff h).2 (by simp [hik])
    have he := follow_leaf hleaf hj
    subst he
    simp only [Option.bind_some, follow, Option.some.injEq] at hj
    exact hij hj

/-- A path from an internal node or to a leaf passes at most `x - n + 1` edges below node `x`. -/
theorem follow_length_le {ft : List Entry} (h : 1 ≤ ft.length) {x y : Nat} {b : Bits} (hx : ft.length ≤ x)
    (hb : follow (tree ft) x b = some y) : b.length ≤ x - ft.length + 1 := by
  induction b generalizing x with
  | nil => simp
  | cons a rest ih =>
    obtain ⟨w, l, r, hn, hf⟩ := follow_cons_some hb
    have hlt := tree_child_lt h _ _ (isChild_of_bit hn a)
    cases rest with
    | nil => simp
    | cons a' rest' =>
      obtain ⟨w', l', r', hn', -⟩ := follow_cons_some hf
      have hge := tree_internal_ge h hn'
      have := ih hge hf
      simp only [List.length_cons] at this ⊢; omega

/-- `1 <= CLEN[k] <= max(1, n - 1)` (42_build.md R127). -/
theorem codes_length_bounds {ft : List Entry} (h : 1 ≤ ft.length) {k : Nat} {b : Bits}
    (hb : (codes ft (tree ft) (rootOf (tree ft)))[k]? = some b) :
    1 ≤ b.length ∧ b.length ≤ max 1 (ft.length - 1) := by
  rcases Nat.eq_or_lt_of_le h with h₁ | h₂
  · rw [codes_single h₁.symm] at hb
    cases k with
    | zero => simp at hb; subst hb; simp
    | succ k => simp at hb
  · have hf := codes_follow h₂ hb
    have hk : k < ft.length := by
      have := (List.getElem?_eq_some_iff.1 hb).1; rwa [codes_length] at this
    have hlen := tree_length h
    refine ⟨?_, ?_⟩
    · cases b with
      | nil =>
        simp only [follow, Option.some.injEq, rootOf] at hf; omega
      | cons a rest => simp
    · have := follow_length_le h (by rw [rootOf]; omega) hf
      rw [rootOf] at this; omega

/-- Every node has a leaf below it. -/
theorem tree_leaf_below {ft : List Entry} (h : 1 ≤ ft.length) {x : Nat} (hx : x < (tree ft).length) :
    ∃ b k, k < ft.length ∧ follow (tree ft) x b = some k := by
  obtain ⟨w, ha⟩ := tree_arena h
  induction x using Nat.strongRecOn with
  | ind x ih =>
    rcases Nat.lt_or_ge x ft.length with hlt | hge
    · exact ⟨[], x, hlt, rfl⟩
    · obtain ⟨w, l, r, hn⟩ := ha.inner x hge hx
      have hl := ha.child_lt l x ⟨w, l, r, hn, .inl rfl⟩
      obtain ⟨b, k, hk, hf⟩ := ih l hl (by omega)
      exact ⟨false :: b, k, hk, by rw [follow_cons hn]; exact hf⟩

/-- From any node, a bit sequence either ends inside the tree or passes a leaf. -/
theorem follow_or_leaf {ft : List Entry} (h : 1 ≤ ft.length) {x : Nat} (hx : x < (tree ft).length) (b : Bits) :
    (∃ y, follow (tree ft) x b = some y ∧ ft.length ≤ y ∧ y < (tree ft).length) ∨
    (∃ c k, c <+: b ∧ k < ft.length ∧ follow (tree ft) x c = some k) := by
  obtain ⟨w, ha⟩ := tree_arena h
  induction b generalizing x with
  | nil =>
    rcases Nat.lt_or_ge x ft.length with hlt | hge
    · exact .inr ⟨[], x, List.prefix_rfl, hlt, rfl⟩
    · exact .inl ⟨x, rfl, hge, hx⟩
  | cons a rest ih =>
    rcases Nat.lt_or_ge x ft.length with hlt | hge
    · exact .inr ⟨[], x, List.nil_prefix, hlt, rfl⟩
    · obtain ⟨w, l, r, hn⟩ := ha.inner x hge hx
      have hl := ha.child_lt _ _ (isChild_of_bit hn a)
      rcases ih (x := if a then r else l) (by omega) with ⟨y, hy, h₁, h₂⟩ | ⟨c, k, hc, hk, hf⟩
      · exact .inl ⟨y, by rw [follow_cons hn]; exact hy, h₁, h₂⟩
      · exact .inr ⟨a :: c, k, List.cons_prefix_cons.2 ⟨rfl, hc⟩, hk, by rw [follow_cons hn]; exact hf⟩

end Sys2Proof.Machine
end

