-- ==== Sys2Proof/Laws/Codec.lean ====
section
/-! SUPPORT. The codec (spec 43_codec.md R150 to R154): what the two loops of ENCODE and the loop of DECODE do. -/

namespace Sys2Proof.Machine

theorem entryOf_eq_none {ft : List Entry} {c : Symbol} : entryOf ft c = none ↔ c ∉ ft.map Entry.sym := by
  simp [entryOf, List.findIdx?_eq_none_iff]

theorem entryOf_eq_some {ft : List Entry} {c : Symbol} {k : Nat} (h : entryOf ft c = some k) :
    ∃ e, ft[k]? = some e ∧ e.sym = c := by
  obtain ⟨hk, h₁, -⟩ := List.findIdx?_eq_some_iff_getElem.1 h
  exact ⟨ft[k], by simp [hk], by simpa using h₁⟩

/-- The entry of a symbol is unique where no symbol stands twice (43_codec.md R151). -/
theorem entryOf_of_getElem? {ft : List Entry} (hn : (ft.map Entry.sym).Nodup) {k : Nat} {e : Entry}
    (h : ft[k]? = some e) : entryOf ft e.sym = some k := by
  have hm : e.sym ∈ ft.map Entry.sym := List.mem_map_of_mem (List.mem_of_getElem? h)
  cases hk : entryOf ft e.sym with
  | none => exact absurd hm (entryOf_eq_none.1 hk)
  | some j =>
    obtain ⟨e', he', hs⟩ := entryOf_eq_some hk
    obtain ⟨hj, hj'⟩ := List.getElem?_eq_some_iff.1 he'
    obtain ⟨hk₁, hk₁'⟩ := List.getElem?_eq_some_iff.1 h
    have := (List.Nodup.getElem_inj_iff hn (i := j) (j := k) (hi := by simpa using hj) (hj := by simpa using hk₁)).1
      (by simp [hj', hk₁', hs])
    rw [this]

/-- What `Rev` answers is the symbol of an entry whose codeword the candidate is. -/
theorem rev_eq_some {ft : List Entry} {code : List Bits} {cand : Bits} {c : Symbol}
    (h : rev ft code cand = some c) : ∃ (k : Nat) (e : Entry), ft[k]? = some e ∧ code[k]? = some cand ∧ e.sym = c := by
  rw [rev, Option.map_eq_some_iff] at h
  obtain ⟨⟨e, w⟩, hf, rfl⟩ := h
  have hw := List.find?_some hf
  simp only [beq_iff_eq] at hw
  obtain ⟨k, hk⟩ := List.getElem?_of_mem (List.mem_of_find?_eq_some hf)
  rw [List.getElem?_zip_eq_some] at hk
  exact ⟨k, e, hk.1, hw ▸ hk.2, rfl⟩

/-- A codeword that no other entry has stands for its own symbol. -/
theorem rev_codeword {ft : List Entry} {code : List Bits} {k : Nat} {e : Entry} {w : Bits} (he : ft[k]? = some e)
    (hw : code[k]? = some w) (hu : ∀ j : Nat, code[j]? = some w → j = k) : rev ft code w = some e.sym := by
  cases h : rev ft code w with
  | none =>
    rw [rev, Option.map_eq_none_iff, List.find?_eq_none] at h
    have hm : (e, w) ∈ ft.zip code := List.mem_of_getElem? (i := k) (List.getElem?_zip_eq_some.2 ⟨he, hw⟩)
    exact absurd (h _ hm) (by simp)
  | some c =>
    obtain ⟨j, e', hj, hc, hs⟩ := rev_eq_some h
    have := hu j hc
    subst this
    rw [he] at hj
    simp only [Option.some.injEq] at hj
    rw [hj, hs]

theorem rev_nil (code : List Bits) (cand : Bits) : rev [] code cand = none := rfl

theorem firstUnknown_eq_none {ft : List Entry} {src : List Symbol} :
    firstUnknown ft src = none ↔ ∀ c ∈ src, entryOf ft c ≠ none := by
  simp [firstUnknown, List.findIdx?_eq_none_iff, Option.isSome_iff_ne_none]

/-- The second loop of ENCODE where every codeword fits. -/
theorem encodeLoop_done {cap : Nat} {word : Symbol → Option Bits} {src : List Symbol} {ws : List Bits}
    (h : src.map word = ws.map some) (out : Bits) (i : Nat) (hc : out.length + ws.flatten.length ≤ cap) :
    encodeLoop cap word out i src = .done (out ++ ws.flatten) := by
  induction src generalizing ws out i with
  | nil =>
    cases ws with
    | nil => simp [encodeLoop]
    | cons => simp at h
  | cons c rest ih =>
    cases ws with
    | nil => simp at h
    | cons w ws =>
      simp only [List.map_cons, List.cons.injEq] at h
      simp only [List.flatten_cons, List.length_append] at hc ⊢
      simp only [encodeLoop, h.1]
      rw [if_neg (by omega), ih h.2 _ _ (by simp only [List.length_append]; omega), List.append_assoc]

/-- The second loop of ENCODE where the codeword of `c` is the first that does not fit. -/
theorem encodeLoop_full {cap : Nat} {word : Symbol → Option Bits} {u v : List Symbol} {c : Symbol} {ws : List Bits}
    {w : Bits} (h : u.map word = ws.map some) (hw : word c = some w) (out : Bits) (i : Nat)
    (hu : out.length + ws.flatten.length ≤ cap) (hc : cap < out.length + ws.flatten.length + w.length) :
    encodeLoop cap word out i (u ++ c :: v) = .full (i + u.length) := by
  induction u generalizing ws out i with
  | nil =>
    cases ws with
    | nil =>
      simp only [List.flatten_nil, List.length_nil, Nat.add_zero] at hc
      simp only [List.nil_append, encodeLoop, hw]
      rw [if_pos hc]; rfl
    | cons => simp at h
  | cons d rest ih =>
    cases ws with
    | nil => simp at h
    | cons w' ws =>
      simp only [List.map_cons, List.cons.injEq] at h
      simp only [List.flatten_cons, List.length_append] at hu hc
      simp only [List.cons_append, encodeLoop, h.1]
      rw [if_neg (by omega), ih h.2 _ _ (by simp only [List.length_append]; omega)
        (by simp only [List.length_append]; omega)]
      simp only [List.length_cons]
      congr 1; omega

/-- How the second loop of ENCODE ends. -/
theorem encodeLoop_cases (cap : Nat) (word : Symbol → Option Bits) (out : Bits) (i : Nat) (src : List Symbol) :
    (∃ ws : List Bits, src.map word = ws.map some ∧ encodeLoop cap word out i src = .done (out ++ ws.flatten) ∧
      (out.length ≤ cap → out.length + ws.flatten.length ≤ cap)) ∨
    (∃ j, encodeLoop cap word out i src = .full j) ∨
    ((∃ c ∈ src, word c = none) ∧ encodeLoop cap word out i src = .missing) := by
  induction src generalizing out i with
  | nil => exact .inl ⟨[], rfl, by simp [encodeLoop], by simp⟩
  | cons c rest ih =>
    cases hw : word c with
    | none => exact .inr (.inr ⟨⟨c, by simp, hw⟩, by simp [encodeLoop, hw]⟩)
    | some w =>
      simp only [encodeLoop, hw]
      rcases Nat.lt_or_ge cap (out.length + w.length) with hlt | hge
      · exact .inr (.inl ⟨i, by rw [if_pos hlt]⟩)
      · rw [if_neg (by omega)]
        rcases ih (out ++ w) (i + 1) with ⟨ws, h₁, h₂, h₃⟩ | ⟨j, hj⟩ | ⟨⟨d, hd, hd'⟩, hm⟩
        · refine .inl ⟨w :: ws, by simp [hw, h₁], by rw [h₂]; simp, fun _ => ?_⟩
          simp only [List.length_append] at h₃
          simp only [List.flatten_cons, List.length_append]
          have := h₃ hge; omega
        · exact .inr (.inl ⟨j, hj⟩)
        · exact .inr (.inr ⟨⟨d, by simp [hd], hd'⟩, hm⟩)

/-- DECODE emits no more symbols, and keeps no longer a tail, than it was given bits, if no codeword is empty. -/
theorem decodeLoop_length_le (lookup : Bits → Option Symbol) (out : List Symbol) (cand b : Bits) :
    (decodeLoop lookup out cand b).1.length + (decodeLoop lookup out cand b).2.length ≤
      out.length + cand.length + b.length := by
  induction b generalizing out cand with
  | nil => simp [decodeLoop]
  | cons x rest ih =>
    rw [decodeLoop]
    split
    · refine (ih _ _).trans ?_
      simp only [List.length_append, List.length_cons, List.length_nil]; omega
    · refine (ih _ _).trans ?_
      simp only [List.length_append, List.length_cons, List.length_nil]; omega

/-- DECODE where no candidate ever matches. -/
theorem decodeLoop_no_match {lookup : Bits → Option Symbol} (out : List Symbol) (cand b : Bits)
    (h : ∀ c, c <+: b → c ≠ [] → lookup (cand ++ c) = none) : decodeLoop lookup out cand b = (out, cand ++ b) := by
  induction b generalizing cand with
  | nil => simp [decodeLoop]
  | cons x rest ih =>
    have hx := h [x] ⟨rest, rfl⟩ (by simp)
    rw [decodeLoop]
    simp only [hx]
    rw [ih]
    · simp
    · intro c hc _
      have := h (x :: c) (List.cons_prefix_cons.2 ⟨rfl, hc⟩) (by simp)
      simpa using this

/-- DECODE reads a codeword none of whose proper beginnings is a codeword as its symbol. -/
theorem decodeLoop_codeword {lookup : Bits → Option Symbol} (out : List Symbol) (cand : Bits) {w : Bits} {c : Symbol}
    (hne : w ≠ []) (hw : lookup (cand ++ w) = some c)
    (hp : ∀ p, p <+: w → p ≠ w → p ≠ [] → lookup (cand ++ p) = none) (rest : Bits) :
    decodeLoop lookup out cand (w ++ rest) = decodeLoop lookup (out ++ [c]) [] rest := by
  induction w generalizing cand with
  | nil => exact absurd rfl hne
  | cons x w ih =>
    rw [List.cons_append, decodeLoop]
    cases w with
    | nil => simp only [hw, List.nil_append]
    | cons y w =>
      have hx := hp [x] ⟨y :: w, rfl⟩ (by simp) (by simp)
      simp only [hx]
      refine ih (cand ++ [x]) (by simp) (by simpa using hw) fun p h₁ h₂ _ => ?_
      have := hp (x :: p) (List.cons_prefix_cons.2 ⟨rfl, h₁⟩) (by simpa using h₂) (by simp)
      simpa using this

/-- DECODE of a sequence of such codewords. -/
theorem decodeLoop_codewords {lookup : Bits → Option Symbol} {src : List Symbol} {ws : List Bits}
    (h : List.Forall₂ (fun c w => w ≠ [] ∧ lookup w = some c ∧ ∀ p, p <+: w → p ≠ w → p ≠ [] → lookup p = none) src ws)
    (out : List Symbol) : decodeLoop lookup out [] ws.flatten = (out ++ src, []) := by
  induction h generalizing out with
  | nil => simp [decodeLoop]
  | cons hcw _ ih =>
    rw [List.flatten_cons, decodeLoop_codeword out [] hcw.1 (by simpa using hcw.2.1)
      (by simpa using hcw.2.2), ih]
    simp

end Sys2Proof.Machine
end

