-- ==== Sys2Proof/Laws/State.lean ====
section
/-! SUPPORT. One lemma per field per update of the state: what each shared update leaves, and what it writes. -/

namespace Sys2Proof.Machine

variable (s : State) (v : Word) (e : Error) (info : Word)

/-! The fields after `respond`. -/

@[simp] theorem respond_src : (respond v s).src = s.src := rfl
@[simp] theorem respond_bits : (respond v s).bits = s.bits := rfl
@[simp] theorem respond_dst : (respond v s).dst = s.dst := rfl
@[simp] theorem respond_ft : (respond v s).ft = s.ft := rfl
@[simp] theorem respond_node : (respond v s).node = s.node := rfl
@[simp] theorem respond_code : (respond v s).code = s.code := rfl
@[simp] theorem respond_tail : (respond v s).tail = s.tail := rfl
@[simp] theorem respond_errcode : (respond v s).errcode = s.errcode := rfl
@[simp] theorem respond_errinfo : (respond v s).errinfo = s.errinfo := rfl
@[simp] theorem respond_pending : (respond v s).pending = some { code := 0, data := v } := rfl
@[simp] theorem respond_params : (respond v s).params = s.params := rfl
@[simp] theorem respond_waiting : (respond v s).waiting = s.waiting := rfl
@[simp] theorem respond_entropy : (respond v s).entropy = s.entropy := rfl
@[simp] theorem respond_offered : (respond v s).offered = s.offered := rfl
@[simp] theorem respond_inputs : (respond v s).inputs = s.inputs := rfl

/-! The fields after `raise`. -/

@[simp] theorem raise_src : (raise e info s).src = s.src := rfl
@[simp] theorem raise_bits : (raise e info s).bits = s.bits := rfl
@[simp] theorem raise_dst : (raise e info s).dst = s.dst := rfl
@[simp] theorem raise_ft : (raise e info s).ft = s.ft := rfl
@[simp] theorem raise_node : (raise e info s).node = s.node := rfl
@[simp] theorem raise_code : (raise e info s).code = s.code := rfl
@[simp] theorem raise_tail : (raise e info s).tail = s.tail := rfl
@[simp] theorem raise_errcode : (raise e info s).errcode = e.code := rfl
@[simp] theorem raise_errinfo : (raise e info s).errinfo = info := rfl
@[simp] theorem raise_pending : (raise e info s).pending = some { code := e.code, data := 0 } := rfl
@[simp] theorem raise_params : (raise e info s).params = s.params := rfl
@[simp] theorem raise_waiting : (raise e info s).waiting = s.waiting := rfl
@[simp] theorem raise_entropy : (raise e info s).entropy = s.entropy := rfl
@[simp] theorem raise_offered : (raise e info s).offered = s.offered := rfl
@[simp] theorem raise_inputs : (raise e info s).inputs = s.inputs := rfl

/-! The fields after `clearSrc`. -/

@[simp] theorem clearSrc_src : (clearSrc s).src = [] := rfl
@[simp] theorem clearSrc_bits : (clearSrc s).bits = s.bits := rfl
@[simp] theorem clearSrc_dst : (clearSrc s).dst = s.dst := rfl
@[simp] theorem clearSrc_ft : (clearSrc s).ft = s.ft := rfl
@[simp] theorem clearSrc_node : (clearSrc s).node = s.node := rfl
@[simp] theorem clearSrc_code : (clearSrc s).code = s.code := rfl
@[simp] theorem clearSrc_tail : (clearSrc s).tail = s.tail := rfl
@[simp] theorem clearSrc_errcode : (clearSrc s).errcode = s.errcode := rfl
@[simp] theorem clearSrc_errinfo : (clearSrc s).errinfo = s.errinfo := rfl
@[simp] theorem clearSrc_pending : (clearSrc s).pending = s.pending := rfl
@[simp] theorem clearSrc_params : (clearSrc s).params = s.params := rfl
@[simp] theorem clearSrc_waiting : (clearSrc s).waiting = s.waiting := rfl
@[simp] theorem clearSrc_entropy : (clearSrc s).entropy = s.entropy := rfl
@[simp] theorem clearSrc_offered : (clearSrc s).offered = s.offered := rfl
@[simp] theorem clearSrc_inputs : (clearSrc s).inputs = s.inputs := rfl

/-! The fields after `clearBits`. -/

@[simp] theorem clearBits_src : (clearBits s).src = s.src := rfl
@[simp] theorem clearBits_bits : (clearBits s).bits = [] := rfl
@[simp] theorem clearBits_dst : (clearBits s).dst = s.dst := rfl
@[simp] theorem clearBits_ft : (clearBits s).ft = s.ft := rfl
@[simp] theorem clearBits_node : (clearBits s).node = s.node := rfl
@[simp] theorem clearBits_code : (clearBits s).code = s.code := rfl
@[simp] theorem clearBits_tail : (clearBits s).tail = s.tail := rfl
@[simp] theorem clearBits_errcode : (clearBits s).errcode = s.errcode := rfl
@[simp] theorem clearBits_errinfo : (clearBits s).errinfo = s.errinfo := rfl
@[simp] theorem clearBits_pending : (clearBits s).pending = s.pending := rfl
@[simp] theorem clearBits_params : (clearBits s).params = s.params := rfl
@[simp] theorem clearBits_waiting : (clearBits s).waiting = s.waiting := rfl
@[simp] theorem clearBits_entropy : (clearBits s).entropy = s.entropy := rfl
@[simp] theorem clearBits_offered : (clearBits s).offered = s.offered := rfl
@[simp] theorem clearBits_inputs : (clearBits s).inputs = s.inputs := rfl

/-! The fields after `clearDst`. -/

@[simp] theorem clearDst_src : (clearDst s).src = s.src := rfl
@[simp] theorem clearDst_bits : (clearDst s).bits = s.bits := rfl
@[simp] theorem clearDst_dst : (clearDst s).dst = [] := rfl
@[simp] theorem clearDst_ft : (clearDst s).ft = s.ft := rfl
@[simp] theorem clearDst_node : (clearDst s).node = s.node := rfl
@[simp] theorem clearDst_code : (clearDst s).code = s.code := rfl
@[simp] theorem clearDst_tail : (clearDst s).tail = 0 := rfl
@[simp] theorem clearDst_errcode : (clearDst s).errcode = s.errcode := rfl
@[simp] theorem clearDst_errinfo : (clearDst s).errinfo = s.errinfo := rfl
@[simp] theorem clearDst_pending : (clearDst s).pending = s.pending := rfl
@[simp] theorem clearDst_params : (clearDst s).params = s.params := rfl
@[simp] theorem clearDst_waiting : (clearDst s).waiting = s.waiting := rfl
@[simp] theorem clearDst_entropy : (clearDst s).entropy = s.entropy := rfl
@[simp] theorem clearDst_offered : (clearDst s).offered = s.offered := rfl
@[simp] theorem clearDst_inputs : (clearDst s).inputs = s.inputs := rfl

/-! The fields after `clearTable`. -/

@[simp] theorem clearTable_src : (clearTable s).src = s.src := rfl
@[simp] theorem clearTable_bits : (clearTable s).bits = s.bits := rfl
@[simp] theorem clearTable_dst : (clearTable s).dst = s.dst := rfl
@[simp] theorem clearTable_ft : (clearTable s).ft = [] := rfl
@[simp] theorem clearTable_node : (clearTable s).node = [] := rfl
@[simp] theorem clearTable_code : (clearTable s).code = [] := rfl
@[simp] theorem clearTable_tail : (clearTable s).tail = s.tail := rfl
@[simp] theorem clearTable_errcode : (clearTable s).errcode = s.errcode := rfl
@[simp] theorem clearTable_errinfo : (clearTable s).errinfo = s.errinfo := rfl
@[simp] theorem clearTable_pending : (clearTable s).pending = s.pending := rfl
@[simp] theorem clearTable_params : (clearTable s).params = s.params := rfl
@[simp] theorem clearTable_waiting : (clearTable s).waiting = s.waiting := rfl
@[simp] theorem clearTable_entropy : (clearTable s).entropy = s.entropy := rfl
@[simp] theorem clearTable_offered : (clearTable s).offered = s.offered := rfl
@[simp] theorem clearTable_inputs : (clearTable s).inputs = s.inputs := rfl

/-! The fields after `clearError`. -/

@[simp] theorem clearError_src : (clearError s).src = s.src := rfl
@[simp] theorem clearError_bits : (clearError s).bits = s.bits := rfl
@[simp] theorem clearError_dst : (clearError s).dst = s.dst := rfl
@[simp] theorem clearError_ft : (clearError s).ft = s.ft := rfl
@[simp] theorem clearError_node : (clearError s).node = s.node := rfl
@[simp] theorem clearError_code : (clearError s).code = s.code := rfl
@[simp] theorem clearError_tail : (clearError s).tail = s.tail := rfl
@[simp] theorem clearError_errcode : (clearError s).errcode = 0 := rfl
@[simp] theorem clearError_errinfo : (clearError s).errinfo = 0 := rfl
@[simp] theorem clearError_pending : (clearError s).pending = s.pending := rfl
@[simp] theorem clearError_params : (clearError s).params = s.params := rfl
@[simp] theorem clearError_waiting : (clearError s).waiting = s.waiting := rfl
@[simp] theorem clearError_entropy : (clearError s).entropy = s.entropy := rfl
@[simp] theorem clearError_offered : (clearError s).offered = s.offered := rfl
@[simp] theorem clearError_inputs : (clearError s).inputs = s.inputs := rfl

/-! The fields after `resetBlock`. -/

@[simp] theorem resetBlock_src : (resetBlock s).src = State.reset.src := rfl
@[simp] theorem resetBlock_bits : (resetBlock s).bits = State.reset.bits := rfl
@[simp] theorem resetBlock_dst : (resetBlock s).dst = State.reset.dst := rfl
@[simp] theorem resetBlock_ft : (resetBlock s).ft = State.reset.ft := rfl
@[simp] theorem resetBlock_node : (resetBlock s).node = State.reset.node := rfl
@[simp] theorem resetBlock_code : (resetBlock s).code = State.reset.code := rfl
@[simp] theorem resetBlock_tail : (resetBlock s).tail = State.reset.tail := rfl
@[simp] theorem resetBlock_errcode : (resetBlock s).errcode = State.reset.errcode := rfl
@[simp] theorem resetBlock_errinfo : (resetBlock s).errinfo = State.reset.errinfo := rfl
@[simp] theorem resetBlock_pending : (resetBlock s).pending = State.reset.pending := rfl
@[simp] theorem resetBlock_params : (resetBlock s).params = s.params := rfl
@[simp] theorem resetBlock_waiting : (resetBlock s).waiting = State.reset.waiting := rfl
@[simp] theorem resetBlock_entropy : (resetBlock s).entropy = if s.waiting.isSome then s.entropy.abandon s.bits.length else s.entropy := rfl
@[simp] theorem resetBlock_offered : (resetBlock s).offered = s.offered := rfl
@[simp] theorem resetBlock_inputs : (resetBlock s).inputs = s.inputs := rfl

/-! The fields after `clearGroups`: each group is emptied exactly when its mask bit is set. -/

variable (mask : Sel)

@[simp] theorem clearGroups_src : (clearGroups mask s).src = if mask.getLsbD 0 then [] else s.src := by
  simp only [clearGroups, applyIf]; split_ifs <;> rfl
@[simp] theorem clearGroups_bits : (clearGroups mask s).bits = if mask.getLsbD 1 then [] else s.bits := by
  simp only [clearGroups, applyIf]; split_ifs <;> rfl
@[simp] theorem clearGroups_dst : (clearGroups mask s).dst = if mask.getLsbD 2 then [] else s.dst := by
  simp only [clearGroups, applyIf]; split_ifs <;> rfl
@[simp] theorem clearGroups_ft : (clearGroups mask s).ft = if mask.getLsbD 3 then [] else s.ft := by
  simp only [clearGroups, applyIf]; split_ifs <;> rfl
@[simp] theorem clearGroups_node : (clearGroups mask s).node = if mask.getLsbD 3 then [] else s.node := by
  simp only [clearGroups, applyIf]; split_ifs <;> rfl
@[simp] theorem clearGroups_code : (clearGroups mask s).code = if mask.getLsbD 3 then [] else s.code := by
  simp only [clearGroups, applyIf]; split_ifs <;> rfl
@[simp] theorem clearGroups_tail : (clearGroups mask s).tail = if mask.getLsbD 2 then 0 else s.tail := by
  simp only [clearGroups, applyIf]; split_ifs <;> rfl
@[simp] theorem clearGroups_errcode : (clearGroups mask s).errcode = if mask.getLsbD 4 then 0 else s.errcode := by
  simp only [clearGroups, applyIf]; split_ifs <;> rfl
@[simp] theorem clearGroups_errinfo : (clearGroups mask s).errinfo = if mask.getLsbD 4 then 0 else s.errinfo := by
  simp only [clearGroups, applyIf]; split_ifs <;> rfl
@[simp] theorem clearGroups_pending : (clearGroups mask s).pending = s.pending := by
  simp only [clearGroups, applyIf]; split_ifs <;> rfl
@[simp] theorem clearGroups_params : (clearGroups mask s).params = s.params := by
  simp only [clearGroups, applyIf]; split_ifs <;> rfl
@[simp] theorem clearGroups_waiting : (clearGroups mask s).waiting = s.waiting := by
  simp only [clearGroups, applyIf]; split_ifs <;> rfl
@[simp] theorem clearGroups_entropy : (clearGroups mask s).entropy = s.entropy := by
  simp only [clearGroups, applyIf]; split_ifs <;> rfl
@[simp] theorem clearGroups_offered : (clearGroups mask s).offered = s.offered := by
  simp only [clearGroups, applyIf]; split_ifs <;> rfl
@[simp] theorem clearGroups_inputs : (clearGroups mask s).inputs = s.inputs := by
  simp only [clearGroups, applyIf]; split_ifs <;> rfl

end Sys2Proof.Machine
end

