-- ==== Sys2Proof/Laws/Ops.lean ====
section
/-! SUPPORT. One lemma per shared operation: how a read ends, what NOISE's loop and the draws do, and the bits of a packed
word (spec 44_noise.md R170, 20_memory.md R61). -/

namespace Sys2Proof.Machine

/-- How a read ends. -/
theorem answer_cases (v : Option Word) (e : Error) (info : Word) (s : State) :
    (∃ w, v = some w ∧ answer v e info s = .next (respond w s)) ∨
    (v = none ∧ answer v e info s = .next (raise e info s)) := by
  cases v with
  | none => exact .inr ⟨rfl, rfl⟩
  | some w => exact .inl ⟨w, rfl, rfl⟩

theorem pushedBits_length (n : Nat) (value : Arg) : (pushedBits n value).length = n := by simp [pushedBits]

theorem Entropy.next_length (e : Entropy) (n : Nat) : (e.next n).length = n := by simp [Entropy.next]

theorem Entropy.next_getElem? (e : Entropy) {n i : Nat} (h : i < n) : (e.next n)[i]? = some (e.draw i) := by
  simp [Entropy.next, h]

theorem noiseLoop_length (p : Nat) (b : Bits) (ds : List Draw) : (noiseLoop p b ds).1.length = b.length := by
  induction b generalizing ds with
  | nil => cases ds <;> rfl
  | cons x b ih =>
    cases ds with
    | nil => rfl
    | cons r ds => simp only [noiseLoop]; split <;> simp [ih]

/-- Bit `i` after NOISE: inverted exactly when its draw is below `p`. -/
theorem noiseLoop_getElem? (p : Nat) (b : Bits) (ds : List Draw) {i : Nat} {r : Draw} (h : ds[i]? = some r) :
    (noiseLoop p b ds).1[i]? = b[i]?.map fun x => x ^^ decide (r.toNat < p) := by
  induction b generalizing ds i with
  | nil => cases ds <;> simp [noiseLoop]
  | cons x b ih =>
    cases ds with
    | nil => simp at h
    | cons r' ds =>
      cases i with
      | zero =>
        simp only [List.getElem?_cons_zero, Option.some.injEq] at h
        subst h
        simp only [noiseLoop]
        split <;> rename_i hr <;> simp [hr]
      | succ i =>
        simp only [List.getElem?_cons_succ] at h
        simp only [noiseLoop]
        split <;> simp only [List.getElem?_cons_succ] <;> exact ih ds h

/-- NOISE counts the draws below `p`. -/
theorem noiseLoop_count (p : Nat) (b : Bits) (ds : List Draw) (h : ds.length = b.length) :
    (noiseLoop p b ds).2 = ds.countP fun r => decide (r.toNat < p) := by
  induction b generalizing ds with
  | nil => cases ds <;> simp_all [noiseLoop]
  | cons x b ih =>
    cases ds with
    | nil => simp at h
    | cons r ds =>
      simp only [List.length_cons, Nat.add_right_cancel_iff] at h
      simp only [noiseLoop, List.countP_cons]
      split <;> rename_i hr <;> simp [ih ds h, hr]

/-- A sum of bits at falling places, built from its first bit on. -/
theorem packed_sum_succ (f : Nat → Bool) (n : Nat) :
    ((List.range (n + 1)).map fun t => (f t).toNat <<< (n - t)).sum =
      2 * ((List.range n).map fun t => (f t).toNat <<< (n - 1 - t)).sum + (f n).toNat := by
  rw [List.range_succ, List.map_append, List.sum_append]
  simp only [List.map_cons, List.map_nil, List.sum_cons, List.sum_nil, Nat.sub_self, Nat.shiftLeft_zero, Nat.add_zero]
  congr 1
  rw [← List.sum_map_mul_left]
  congr 1
  apply List.map_congr_left
  intro t ht
  rw [List.mem_range] at ht
  obtain ⟨k, hk⟩ : ∃ k, n - t = k + 1 := ⟨n - t - 1, by omega⟩
  rw [hk, show n - 1 - t = k by omega, Nat.shiftLeft_eq, Nat.shiftLeft_eq, Nat.pow_succ]
  ring

theorem packed_sum_testBit (f : Nat → Bool) (n i : Nat) :
    (((List.range n).map fun t => (f t).toNat <<< (n - 1 - t)).sum).testBit i =
      (decide (i < n) && f (n - 1 - i)) := by
  induction n generalizing i with
  | zero => simp
  | succ n ih =>
    rw [Nat.add_sub_cancel, packed_sum_succ]
    cases i with
    | zero => cases f n <;> simp
    | succ i =>
      have hdiv : (2 * ((List.range n).map fun t => (f t).toNat <<< (n - 1 - t)).sum + (f n).toNat) / 2 =
          ((List.range n).map fun t => (f t).toNat <<< (n - 1 - t)).sum := by
        cases f n
        · simp
        · simp; omega
      rw [Nat.testBit_succ, hdiv, ih]
      congr 1
      · simp
      · congr 1; omega

/-- Bit `t` of a packed word is the stream's bit `32j + 31 - t`, 0 beyond the stream's end (20_memory.md R61). -/
theorem packedWord_getLsbD (b : Bits) (j t : Nat) :
    (packedWord b j).getLsbD t = (decide (t < 32) && b.getD (32 * j + (31 - t)) false) := by
  rw [packedWord, natWord, BitVec.getLsbD_ofNat]
  have h := packed_sum_testBit (fun t => b.getD (32 * j + t) false) 32 t
  simp only [streamBit]
  rw [h]
  cases decide (t < 32) <;> simp

end Sys2Proof.Machine
end

