-- ==== Sys2Proof/Laws/Exec.lean ====
section
/-! SUPPORT. What a command can do, once for all 21 (spec 60_exceptions.md R220 to R224, 10_state.md R42): it succeeds,
it raises one of its errors, it waits (NOISE alone), or it stops where the table lacks a codeword. -/

namespace Sys2Proof.Machine

/-- The four ways a command ends. -/
inductive Ends (i : Instr) (s : State) : Host.Outcome State Fault Refusal → Prop where
  /-- It succeeds: it writes what it may write, and answers. -/
  | succeeds (v : Word) (t : State) (h : Writes i s t) : Ends i s (.next (respond v t))
  /-- It raises one of its errors. -/
  | raises (e : Error) (info : Word) (h : e ∈ mayRaise i) : Ends i s (.next (raise e info s))
  /-- NOISE waits for its draws. -/
  | waits (p : Arg) (hi : i = .noise p) (hp : p.toNat ≤ maxProbability)
      (ho : s.entropy.offers s.bits.length = false) : Ends i s (.next { s with waiting := some p })
  /-- The table lacks a codeword. -/
  | stops (h : s.code.length < s.ft.length) : Ends i s (.fault .codewordMissing)

theorem ends_answer {i : Instr} {s : State} (v : Option Word) {e : Error} (info : Word)
    (hw : Writes i s s) (he : e ∈ mayRaise i) : Ends i s (answer v e info s) := by
  rcases answer_cases v e info s with ⟨w, -, h⟩ | ⟨-, h⟩
  · rw [h]; exact .succeeds w s hw
  · rw [h]; exact .raises e info he

/-- Where an entry has no codeword, the code table is shorter than the frequency table. -/
theorem length_lt_of_codeword_none {ft : List Entry} {code : List Bits} {k : Nat} (hk : k < ft.length)
    (h : code[k]? = none) : code.length < ft.length := by
  rw [List.getElem?_eq_none_iff] at h; omega

theorem codewordOf_eq_none {ft : List Entry} {code : List Bits} {c : Symbol} (he : entryOf ft c ≠ none)
    (h : codewordOf ft code c = none) : code.length < ft.length := by
  obtain ⟨k, hk⟩ := Option.ne_none_iff_exists'.1 he
  obtain ⟨e, hf, -⟩ := entryOf_eq_some hk
  rw [codewordOf, hk, Option.bind_some] at h
  exact length_lt_of_codeword_none (List.getElem?_eq_some_iff.1 hf).1 h

theorem execClear_ends (mask : Sel) (s : State) : Ends (.clear mask) s (execClear mask s) := by
  refine .succeeds 0 (clearGroups mask s) ?_
  have hs := clearGroups_src s mask
  have hb := clearGroups_bits s mask
  have hd := clearGroups_dst s mask
  have hf := clearGroups_ft s mask
  have hn := clearGroups_node s mask
  have hc := clearGroups_code s mask
  have ht := clearGroups_tail s mask
  have hec := clearGroups_errcode s mask
  have hei := clearGroups_errinfo s mask
  have hp := clearGroups_pending s mask
  have hq := clearGroups_params s mask
  have hw := clearGroups_waiting s mask
  have he := clearGroups_entropy s mask
  have ho := clearGroups_offered s mask
  have hi := clearGroups_inputs s mask
  simp only [Writes]
  cases h : clearGroups mask s
  rw [h] at hs hb hd hf hn hc ht hec hei hp hq hw he ho hi
  simp only at hs hb hd hf hn hc ht hec hei hp hq hw he ho hi
  simp only [State.mk.injEq]
  subst hs hb hd hf hn hc ht hec hei
  refine ⟨?_, ?_, ?_, ?_, ?_, ?_, ?_, ?_, ?_, hp, hq, hw, he, ho, hi⟩ <;> split <;> rfl

theorem execPushSym_ends (sym : Arg) (s : State) : Ends (.pushSym sym) s (execPushSym sym s) := by
  rw [execPushSym]
  split
  · exact .raises .invalidSymbol _ (by simp [mayRaise])
  · split
    · exact .raises .capacity _ (by simp [mayRaise])
    · exact .succeeds _ _ ⟨_, rfl⟩

theorem execPushBits_ends (n : Nat) (value : Arg) (s : State) : Ends (.pushBits n value) s (execPushBits n value s) := by
  rw [execPushBits]
  split
  · exact .raises .capacity _ (by simp [mayRaise])
  · refine .succeeds _ _ ⟨_, rfl, pushedBits_length n value, fun h => ?_⟩
    rw [pushedBits_length]
    simp only [WellFormed, wellFormed, Bool.and_eq_true, decide_eq_true_eq] at h
    exact h.1

theorem execBuild_ends (s : State) : Ends .build s (execBuild s) := by
  rw [execBuild]
  split
  · exact .raises .emptyInput _ (by simp [mayRaise])
  · split
    · exact .raises .tooManySymbols _ (by simp [mayRaise])
    · exact .succeeds _ _ rfl

theorem execEncode_ends (s : State) : Ends .encode s (execEncode s) := by
  rw [execEncode]
  split
  · exact .raises .unknownSymbol _ (by simp [mayRaise])
  · rename_i hu
    rw [firstUnknown_eq_none] at hu
    rcases encodeLoop_cases s.params.bitCap (codewordOf s.ft s.code) [] 0 s.src with
      ⟨ws, -, h, -⟩ | ⟨j, h⟩ | ⟨⟨c, hc, hn⟩, h⟩ <;> rw [h]
    · exact .succeeds _ _ rfl
    · exact .raises .capacity _ (by simp [mayRaise])
    · exact .stops (codewordOf_eq_none (hu c hc) hn)

theorem execNoise_ends (p : Arg) (s : State) : Ends (.noise p) s (execNoise p s) := by
  rw [execNoise]
  split
  · exact .raises .invalidProbability _ (by simp [mayRaise])
  · rename_i hp
    split
    · exact .succeeds _ _ ⟨rfl, noiseLoop_length _ _ _⟩
    · rename_i ho
      exact .waits p rfl (by omega) (by simpa using ho)

theorem execRdBits_ends (j : Arg) (s : State) : Ends (.rdBits j) s (execRdBits j s) := by
  rw [execRdBits]
  split
  · exact .raises .badIndex _ (by simp [mayRaise])
  · exact .succeeds _ _ rfl

theorem execRdClen_ends (k : Arg) (s : State) : Ends (.rdClen k) s (execRdClen k s) := by
  rw [execRdClen]
  split
  · exact .raises .badIndex _ (by simp [mayRaise])
  · rename_i hk
    split
    · exact .succeeds _ _ rfl
    · rename_i hn
      exact .stops (length_lt_of_codeword_none (by rw [State.ndist] at hk; omega) hn)

theorem execRdCbits_ends (k : BitVec 14) (j : BitVec 8) (s : State) : Ends (.rdCbits k j) s (execRdCbits k j s) := by
  rw [execRdCbits]
  split
  · exact .raises .badIndex _ (by simp [mayRaise])
  · rename_i hk
    split
    · split
      · exact .raises .badIndex _ (by simp [mayRaise])
      · exact .succeeds _ _ rfl
    · rename_i hn
      exact .stops (length_lt_of_codeword_none (by rw [State.ndist] at hk; omega) hn)

/-- How every command ends. -/
theorem exec_ends (i : Instr) (s : State) : Ends i s (exec i s) := by
  cases i with
  | nop => exact .succeeds 0 s rfl
  | clear mask => exact execClear_ends mask s
  | pushSym sym => exact execPushSym_ends sym s
  | pushBits n value => exact execPushBits_ends n value s
  | build => exact execBuild_ends s
  | encode => exact execEncode_ends s
  | noise p => exact execNoise_ends p s
  | decode => exact .succeeds _ _ rfl
  | rdReg r => exact ends_answer _ _ rfl (by simp [mayRaise])
  | rdSrc i => exact ends_answer _ _ rfl (by simp [mayRaise])
  | rdBits j => exact execRdBits_ends j s
  | rdDst i => exact ends_answer _ _ rfl (by simp [mayRaise])
  | rdFsym k => exact ends_answer _ _ rfl (by simp [mayRaise])
  | rdFcnt k => exact ends_answer _ _ rfl (by simp [mayRaise])
  | rdClen k => exact execRdClen_ends k s
  | rdCbits k j => exact execRdCbits_ends k j s
  | rdCof sym => exact ends_answer _ _ rfl (by simp [mayRaise])
  | rdNkind x => exact ends_answer _ _ rfl (by simp [mayRaise])
  | rdNw x => exact ends_answer _ _ rfl (by simp [mayRaise])
  | rdNl x => exact ends_answer _ _ rfl (by simp [mayRaise])
  | rdNr x => exact ends_answer _ _ rfl (by simp [mayRaise])

end Sys2Proof.Machine
end

