-- ==== Sys2Proof/Laws/Freq.lean ====
section
/-! SUPPORT. The frequency table (spec 42_build.md R121): what the count of a sequence of symbols is. -/

namespace Sys2Proof.Machine

theorem hasEntry_iff {c : Symbol} {ft : List Entry} : hasEntry c ft = true ↔ c ∈ ft.map Entry.sym := by
  simp only [hasEntry, List.any_eq_true, beq_iff_eq, List.mem_map]

theorem countSymbol_map_sym (c : Symbol) (ft : List Entry) :
    (countSymbol c ft).map Entry.sym = ft.map Entry.sym := by
  induction ft with
  | nil => rfl
  | cons e rest ih => rw [countSymbol]; split <;> simp [ih]

theorem countSymbol_length (c : Symbol) (ft : List Entry) : (countSymbol c ft).length = ft.length := by
  simpa using congrArg List.length (countSymbol_map_sym c ft)

theorem totalCount_countSymbol {c : Symbol} {ft : List Entry} (h : c ∈ ft.map Entry.sym) :
    totalCount (countSymbol c ft) = totalCount ft + 1 := by
  induction ft with
  | nil => simp at h
  | cons e rest ih =>
    rw [countSymbol]
    split
    · simp [totalCount]; omega
    · rename_i hne
      have := ih (by simpa [Ne.symm hne] using h)
      simp only [totalCount, List.map_cons, List.sum_cons] at this ⊢; omega

/-- Each entry after counting `c` once more, where no symbol stands twice. -/
theorem mem_countSymbol {c : Symbol} {ft : List Entry} (hn : (ft.map Entry.sym).Nodup) {e : Entry}
    (h : e ∈ countSymbol c ft) :
    ∃ e' ∈ ft, e'.sym = e.sym ∧ e.cnt = e'.cnt + if e.sym = c then 1 else 0 := by
  induction ft with
  | nil => simp [countSymbol] at h
  | cons a rest ih =>
    rw [List.map_cons, List.nodup_cons] at hn
    rw [countSymbol] at h
    split at h
    · rename_i ha
      rcases List.mem_cons.1 h with rfl | hr
      · exact ⟨a, by simp, rfl, by simp [ha]⟩
      · refine ⟨e, by simp [hr], rfl, ?_⟩
        have : e.sym ≠ c := fun he => hn.1 (by rw [ha, ← he]; exact List.mem_map_of_mem hr)
        simp [this]
    · rename_i ha
      rcases List.mem_cons.1 h with rfl | hr
      · exact ⟨e, by simp, rfl, by simp [ha]⟩
      · obtain ⟨e', h₁, h₂⟩ := ih hn.2 hr
        exact ⟨e', by simp [h₁], h₂⟩

/-- The table so far is the count of the symbols seen so far. -/
structure Counts (nSym : Nat) (seen : List Symbol) (ft : List Entry) : Prop where
  count  : ∀ e ∈ ft, e.cnt = seen.count e.sym
  nodup  : (ft.map Entry.sym).Nodup
  mem    : ∀ c, c ∈ ft.map Entry.sym ↔ c ∈ seen
  order  : (ft.map Entry.sym).Pairwise fun c d => seen.idxOf c < seen.idxOf d
  total  : totalCount ft = seen.length
  le     : ft.length ≤ nSym

theorem counts_nil (nSym : Nat) : Counts nSym [] [] where
  count := by simp
  nodup := by simp
  mem := by simp
  order := by simp
  total := rfl
  le := by simp

theorem idxOf_append_seen {seen : List Symbol} {c : Symbol} (h : c ∈ seen) (x : Symbol) :
    (seen ++ [x]).idxOf c = seen.idxOf c := List.idxOf_append_of_mem h

theorem counts_seen {nSym : Nat} {seen : List Symbol} {ft : List Entry} (h : Counts nSym seen ft) {c : Symbol}
    (hc : hasEntry c ft = true) : Counts nSym (seen ++ [c]) (countSymbol c ft) where
  count e he := by
    obtain ⟨e', h₁, h₂, h₃⟩ := mem_countSymbol h.nodup he
    rw [h₃, h.count e' h₁, h₂, List.count_append, List.count_singleton]
    rcases eq_or_ne e.sym c with he | he
    · simp [he]
    · simp [he, he.symm]
  nodup := by rw [countSymbol_map_sym]; exact h.nodup
  mem d := by
    rw [countSymbol_map_sym, h.mem d, List.mem_append, List.mem_singleton]
    have := (h.mem c).1 (hasEntry_iff.1 hc)
    exact ⟨.inl, fun hd => hd.elim id fun e => e ▸ this⟩
  order := by
    rw [countSymbol_map_sym]
    refine h.order.imp_of_mem fun {a b} ha hb hab => ?_
    rw [idxOf_append_seen ((h.mem a).1 ha), idxOf_append_seen ((h.mem b).1 hb)]; exact hab
  total := by rw [totalCount_countSymbol (hasEntry_iff.1 hc), h.total]; simp
  le := by rw [countSymbol_length]; exact h.le

theorem counts_new {nSym : Nat} {seen : List Symbol} {ft : List Entry} (h : Counts nSym seen ft) {c : Symbol}
    (hc : hasEntry c ft = false) (hl : ft.length ≠ nSym) :
    Counts nSym (seen ++ [c]) (ft ++ [{ sym := c, cnt := 1 }]) := by
  have hn : c ∉ ft.map Entry.sym := by rw [← hasEntry_iff, hc]; simp
  have hs : c ∉ seen := fun hm => hn ((h.mem c).2 hm)
  refine ⟨?_, ?_, ?_, ?_, ?_, ?_⟩
  · intro e he
    rw [List.count_append, List.count_singleton]
    rcases List.mem_append.1 he with he | he
    · have : c ≠ e.sym := fun hce => hn (by rw [hce]; exact List.mem_map_of_mem he)
      simp [h.count e he, this]
    · simp only [List.mem_singleton] at he
      subst he
      simp [List.count_eq_zero.2 hs]
  · rw [List.map_append, List.nodup_append]
    refine ⟨h.nodup, by simp, ?_⟩
    intro a ha b hb hab
    simp only [List.map_cons, List.map_nil, List.mem_singleton] at hb
    exact hn (by rw [← hb, ← hab]; exact ha)
  · intro d; rw [List.map_append, List.mem_append, List.mem_append, h.mem d]; simp
  · rw [List.map_append, List.pairwise_append]
    refine ⟨h.order.imp_of_mem fun {a b} ha hb hab => ?_, by simp, ?_⟩
    · rw [idxOf_append_seen ((h.mem a).1 ha), idxOf_append_seen ((h.mem b).1 hb)]; exact hab
    · intro a ha b hb
      simp only [List.map_cons, List.map_nil, List.mem_singleton] at hb
      subst hb
      have ham := (h.mem a).1 ha
      rw [idxOf_append_seen ham, List.idxOf_append_of_notMem hs]
      have := List.idxOf_lt_length_iff.2 ham
      omega
  · have := h.total; simp only [totalCount] at this; simp [totalCount, this]
  · have := h.le; simp only [List.length_append, List.length_cons, List.length_nil]; omega

/-- How the loop ends: with the count of everything, or at the first symbol that finds the table full. -/
theorem freqLoop_spec {nSym : Nat} {seen : List Symbol} {ft : List Entry} (h : Counts nSym seen ft)
    (rest : List Symbol) :
    (∃ ft', freqLoop nSym ft seen.length rest = .ok ft' ∧ Counts nSym (seen ++ rest) ft') ∨
    (∃ u c v ft', rest = u ++ c :: v ∧ freqLoop nSym ft seen.length rest = .error (seen.length + u.length) ∧
      Counts nSym (seen ++ u) ft' ∧ ft'.length = nSym ∧ c ∉ seen ++ u) := by
  induction rest generalizing seen ft with
  | nil => exact .inl ⟨ft, rfl, by simpa using h⟩
  | cons c rest ih =>
    have step : ∀ ft₁, freqLoop nSym ft seen.length (c :: rest) = freqLoop nSym ft₁ (seen.length + 1) rest →
        Counts nSym (seen ++ [c]) ft₁ →
        (∃ ft', freqLoop nSym ft seen.length (c :: rest) = .ok ft' ∧ Counts nSym (seen ++ c :: rest) ft') ∨
        (∃ u d v ft', c :: rest = u ++ d :: v ∧
          freqLoop nSym ft seen.length (c :: rest) = .error (seen.length + u.length) ∧
          Counts nSym (seen ++ u) ft' ∧ ft'.length = nSym ∧ d ∉ seen ++ u) := by
      intro ft₁ he hc
      have := ih hc
      rw [List.length_append, List.length_cons, List.length_nil, Nat.zero_add, ← he, List.append_assoc,
        List.singleton_append] at this
      rcases this with ⟨ft', h₁, h₂⟩ | ⟨u, d, v, ft', h₁, h₂, h₃, h₄, h₅⟩
      · exact .inl ⟨ft', h₁, h₂⟩
      · refine .inr ⟨c :: u, d, v, ft', by rw [h₁]; rfl, ?_, ?_, h₄, ?_⟩
        · rw [h₂, List.length_cons]; congr 1; omega
        · simpa using h₃
        · simpa using h₅
    cases hc : hasEntry c ft with
    | true => exact step _ (by rw [freqLoop, if_pos hc]) (counts_seen h hc)
    | false =>
      rcases eq_or_ne ft.length nSym with hl | hl
      · refine .inr ⟨[], c, rest, ft, rfl, ?_, by simpa using h, hl, ?_⟩
        · rw [freqLoop, if_neg (by simp [hc]), if_pos hl]; rfl
        · rw [List.append_nil, ← h.mem c, ← hasEntry_iff, hc]; simp
      · exact step _ (by rw [freqLoop, if_neg (by simp [hc]), if_neg hl]) (counts_new h hc hl)

theorem freqTable_counts {nSym : Nat} {src : List Symbol} {ft : List Entry} (h : freqTable nSym src = .ok ft) :
    Counts nSym src ft := by
  rcases freqLoop_spec (counts_nil nSym) src with ⟨ft', h₁, h₂⟩ | ⟨u, c, v, ft', -, h₂, -⟩
  · have : freqTable nSym src = .ok ft' := h₁
    rw [h] at this
    simp only [Except.ok.injEq] at this
    rw [this]; simpa using h₂
  · have : freqTable nSym src = .error _ := h₂
    rw [h] at this; simp at this

/-- The number of entries is the number of distinct symbols counted. -/
theorem Counts.length_eq {nSym : Nat} {seen : List Symbol} {ft : List Entry} (h : Counts nSym seen ft) :
    ft.length = seen.dedup.length := by
  rw [← List.card_toFinset, ← List.length_map Entry.sym, ← List.toFinset_card_of_nodup h.nodup]
  congr 1
  ext c; simp only [List.mem_toFinset]; exact h.mem c

end Sys2Proof.Machine
end

