-- ==== Sys2Proof/Laws/Inv.lean ====
section
/-! SUPPORT. What a command can do, from its next state, and what keeps the invariant of Safety.lean
    (spec 10_state.md R35):
the frame lemmas and one lemma per way a command or an event ends. -/

namespace Sys2Proof.Machine

/-- How a command that answers a next state has ended. -/
theorem exec_next {i : Instr} {s t : State} (he : exec i s = .next t) :
    (∃ v u, t = respond v u ∧ Writes i s u) ∨ (∃ e info, e ∈ mayRaise i ∧ t = raise e info s) ∨
    (∃ p, i = .noise p ∧ p.toNat ≤ maxProbability ∧ t = { s with waiting := some p }) := by
  have := exec_ends i s
  rw [he] at this
  cases this with
  | succeeds v u h => exact .inl ⟨v, u, rfl, h⟩
  | raises e info h => exact .inr (.inl ⟨e, info, h, rfl⟩)
  | waits p hi hp ho => exact .inr (.inr ⟨p, hi, hp, rfl⟩)

/-- No command's row touches PENDING, the parameters or the ports. -/
theorem Writes.frame {i : Instr} {s t : State} (h : Writes i s t) : t.pending = s.pending ∧ t.params = s.params ∧
    t.waiting = s.waiting ∧ t.offered = s.offered ∧ t.inputs = s.inputs := by
  cases i <;> simp only [Writes] at h <;> first
    | (rw [h]; exact ⟨rfl, rfl, rfl, rfl, rfl⟩)
    | (rw [h.1]; exact ⟨rfl, rfl, rfl, rfl, rfl⟩)
    | (obtain ⟨_, rfl⟩ := h; exact ⟨rfl, rfl, rfl, rfl, rfl⟩)
    | (obtain ⟨_, rfl, -⟩ := h; exact ⟨rfl, rfl, rfl, rfl, rfl⟩)

/-- No command's row but NOISE's touches the entropy source. -/
theorem Writes.entropy_eq {i : Instr} {s t : State} (h : Writes i s t) (hi : ∀ p, i ≠ .noise p) :
    t.entropy = s.entropy := by
  cases i <;> simp only [Writes] at h <;> first
    | exact absurd rfl (hi _)
    | rw [h]
    | (obtain ⟨_, rfl⟩ := h; rfl)
    | (obtain ⟨_, rfl, -⟩ := h; rfl)

/-- No command's row but CLEAR's touches the error record (10_state.md R31). -/
theorem Writes.error_eq {i : Instr} {s t : State} (h : Writes i s t) (hi : ∀ mask, i ≠ .clear mask) :
    t.errcode = s.errcode ∧ t.errinfo = s.errinfo := by
  cases i <;> simp only [Writes] at h <;> first
    | exact absurd rfl (hi _)
    | (rw [h]; exact ⟨rfl, rfl⟩)
    | (rw [h.1]; exact ⟨rfl, rfl⟩)
    | (obtain ⟨_, rfl⟩ := h; exact ⟨rfl, rfl⟩)
    | (obtain ⟨_, rfl, -⟩ := h; exact ⟨rfl, rfl⟩)

theorem Error.code_ne_zero (e : Error) : e.code ≠ 0 := by cases e <;> decide

/-- The table, as a case split. -/
theorem inv_table {s : State} (h : Inv s) : (s.ft = [] ∧ s.node = [] ∧ s.code = []) ∨ (TableBuilt s) := by
  rcases h.table with h | h
  · exact .inl ⟨h.ft_empty, h.node_empty, h.code_empty⟩
  · exact .inr h

/-- A codeword stands at one index only. -/
theorem prefixFree_inj {code : List Bits} (h : PrefixFree code) {i j : Nat} {c : Bits} (hi : code[i]? = some c)
    (hj : code[j]? = some c) : i = j := by
  by_contra hn
  exact h i j c c hn hi hj List.prefix_rfl

/-- The code table of a good state is prefix-free (10_state.md R36). -/
theorem inv_prefixFree {s : State} (h : Inv s) : PrefixFree s.code := by
  rcases inv_table h with ⟨-, -, hc⟩ | hb
  · intro i j c d _ hi; rw [hc] at hi; simp at hi
  · rw [hb.code_eq]; exact codes_prefixFree hb.ndist_pos

theorem maxlen_le {s : State} {m : Nat} (h : ∀ c ∈ s.code, c.length ≤ m) : s.maxlen ≤ m := by
  unfold State.maxlen
  revert h
  generalize s.code = l
  induction l with
  | nil => simp
  | cons a l ih => intro h; simp at *; exact ⟨h.1, ih h.2⟩

theorem le_maxlen {s : State} {c : Bits} (h : c ∈ s.code) : c.length ≤ s.maxlen := by
  unfold State.maxlen
  revert h
  generalize s.code = l
  induction l with
  | nil => simp
  | cons a l ih =>
    intro h; simp at *
    rcases h with rfl | h
    · exact .inl le_rfl
    · exact .inr (ih h)

/-- Where there is a codeword, some codeword has MAXLEN bits (10_state.md R29). -/
theorem maxlen_attained {s : State} (h : s.code ≠ []) : ∃ c ∈ s.code, c.length = s.maxlen := by
  unfold State.maxlen
  revert h
  generalize s.code = l
  induction l with
  | nil => simp
  | cons a l ih =>
    intro _
    by_cases hl : l = []
    · exact ⟨a, by simp, by simp [hl]⟩
    · obtain ⟨c, hc, he⟩ := ih hl
      simp only [List.map_cons, List.foldr_cons]
      rcases Nat.le_total a.length ((l.map List.length).foldr max 0) with h | h
      · exact ⟨c, by simp [hc], by rw [he]; exact (max_eq_right h).symm⟩
      · exact ⟨a, by simp, (max_eq_left h).symm⟩

theorem codes_ne_nil {ft : List Entry} (h : 1 ≤ ft.length) : ∀ c ∈ codes ft (tree ft) (rootOf (tree ft)), c ≠ [] := by
  intro c hc e
  obtain ⟨k, hk⟩ := List.getElem?_of_mem hc
  have := (codes_length_bounds h hk).1
  simp [e] at this

/-- The invariant is about ten fields; of PENDING and the error code it asks bounds, of a waiting NOISE its P. -/
theorem inv_frame {s t : State} (h : Inv s) (h1 : t.params = s.params) (h2 : t.src = s.src) (h3 : t.bits = s.bits)
    (h4 : t.dst = s.dst) (h5 : t.tail = s.tail) (h6 : t.ft = s.ft) (h7 : t.node = s.node) (h8 : t.code = s.code)
    (h9 : t.errcode.toNat ≤ 8) (h10 : ∀ r, t.pending = some r → r.code.toNat ≤ 8)
    (h11 : ∀ p, t.waiting = some p → p.toNat ≤ maxProbability ∧ t.pending = none) : Inv t := by
  obtain ⟨a, b, c, d, e, f, g, i, j⟩ := h
  refine ⟨h1 ▸ a, by rw [h1, h2]; exact b, by rw [h1, h3]; exact c, by rw [h1, h4]; exact d, by rw [h1, h5]; exact e,
      ?_, h9, h10, h11⟩
  rcases f with ⟨f1, f2, f3⟩ | ⟨f1, f2, f3, f4, f5, f6, f7⟩
  · exact .inl ⟨by rw [h6, f1], by rw [h7, f2], by rw [h8, f3]⟩
  · exact .inr ⟨by rw [h6]; exact f1, by rw [h6, h1]; exact f2, by rw [h6]; exact f3, by rw [h6]; exact f4,
      by rw [h6, h1]; exact f5, by rw [h6, h7]; exact f6, by rw [h6, h8]; exact f7⟩

/-- The table part of the invariant is about four fields. -/
theorem table_frame {s t : State} (h : TableEmpty s ∨ TableBuilt s) (h1 : t.params = s.params) (h6 : t.ft = s.ft)
    (h7 : t.node = s.node) (h8 : t.code = s.code) : TableEmpty t ∨ TableBuilt t := by
  rcases h with ⟨f1, f2, f3⟩ | ⟨f1, f2, f3, f4, f5, f6, f7⟩
  · exact .inl ⟨by rw [h6, f1], by rw [h7, f2], by rw [h8, f3]⟩
  · exact .inr ⟨by rw [h6]; exact f1, by rw [h6, h1]; exact f2, by rw [h6]; exact f3, by rw [h6]; exact f4,
      by rw [h6, h1]; exact f5, by rw [h6, h7]; exact f6, by rw [h6, h8]; exact f7⟩

/-- An error keeps the invariant. -/
theorem inv_raise {s : State} (h : Inv s) (hw : s.waiting = none) (e : Machine.Error) (info : Word) :
    Inv (raise e info s) := by
  have : e.code.toNat ≤ 8 := by cases e <;> decide
  exact inv_frame h rfl rfl rfl rfl rfl rfl rfl rfl this (by simp; exact this) (by simp [hw])

/-- A response keeps the invariant. -/
theorem inv_respond {s : State} (h : Inv s) (hw : s.waiting = none) (v : Word) : Inv (respond v s) :=
  inv_frame h rfl rfl rfl rfl rfl rfl rfl rfl h.errcode_le (by simp) (by simp [hw])

end Sys2Proof.Machine
end

