-- ==== Sys2Proof/Laws/Decoder.lean ====
section
/-! SUPPORT. The decoder of spec 43_codec.md R152 against the tree walk of R153, and after the encoder (R154). -/

namespace Sys2Proof.Machine

/-- The path to an internal node is no codeword. -/
theorem rev_none_of_internal {s : State} (h : TableBuilt s) (h2 : 2 ≤ s.ft.length) {b : Bits} {y : Nat}
    (hf : follow s.node s.root b = some y) (hy : s.ft.length ≤ y) : rev s.ft s.code b = none := by
  cases hr : rev s.ft s.code b with
  | none => rfl
  | some c =>
    obtain ⟨k, e, hk, hc, -⟩ := rev_eq_some hr
    rw [h.code_eq] at hc
    have := codes_follow h2 hc
    rw [h.node_eq] at hf
    have hroot : s.root = rootOf (tree s.ft) := by simp [State.root, rootOf, h.node_eq]
    rw [hroot] at hf
    rw [hf] at this
    have := (List.getElem?_eq_some_iff.1 hk).1
    simp_all; omega

/-- The decoder and the tree walk agree, from any internal node (43_codec.md R153 case 3). -/
theorem treeDecode_eq {s : State} (hI : Inv s) (h : TableBuilt s) (h2 : 2 ≤ s.ft.length) (b : Bits)
    (out : List Symbol) (cand : Bits) (x : Nat) (hx : follow s.node s.root cand = some x) (hi : s.ft.length ≤ x)
    (hl : x < s.node.length) :
    ∃ tl, decodeLoop (rev s.ft s.code) out cand b = ((treeDecode s.node out x cand.length b).1, tl) ∧
      tl.length = (treeDecode s.node out x cand.length b).2 ∧
      ∃ y, follow s.node s.root tl = some y ∧ s.ft.length ≤ y ∧ y < s.node.length := by
  have h1 := h.ndist_pos
  obtain ⟨w0, ha⟩ := tree_arena h1
  have hroot : s.root = rootOf s.node := rfl
  have hnode := h.node_eq
  have hlen := tree_length h1
  induction b generalizing out cand x with
  | nil => exact ⟨cand, rfl, rfl, x, hx, hi, hl⟩
  | cons a rest ih =>
    obtain ⟨w, l, r, hn⟩ := ha.inner x hi (by rw [← hnode]; exact hl)
    rw [← hnode] at hn
    rw [treeDecode]
    simp only [hn]
    have hlt := tree_child_lt h1 _ _ (isChild_of_bit (hnode ▸ hn) a)
    have hf : follow s.node s.root (cand ++ [a]) = some (if a then r else l) := by
      rw [follow_append, hx]; simp [follow, hn]
    rw [decodeLoop]
    rcases Nat.lt_or_ge (if a then r else l) s.ft.length with hleaf | hint
    · have hnl : s.node[if a then r else l]? =
          some (Node.leaf s.ft[if a then r else l].sym s.ft[if a then r else l].cnt) := by
        rw [hnode]; exact (tree_leaf_iff h1).2 (by simp [hleaf])
      have hcode : s.code[if a then r else l]? = some (cand ++ [a]) := by
        rw [h.code_eq]; apply codes_of_follow h2 hleaf; rw [← hnode]; exact hf
      have hrev := rev_codeword (List.getElem?_eq_getElem hleaf) hcode
        (fun j hj => prefixFree_inj (inv_prefixFree hI) hj hcode)
      simp only [hrev, hnl]
      have := ih (out ++ [s.ft[if a then r else l].sym]) [] (rootOf s.node) (by rw [hroot]; rfl)
        (by rw [rootOf, hnode]; omega) (by rw [rootOf, hnode]; omega)
      simpa using this
    · have hrev := rev_none_of_internal h h2 hf hint
      obtain ⟨w', l', r', hn'⟩ := ha.inner _ hint (by rw [← hnode]; omega)
      rw [← hnode] at hn'
      simp only [hrev, hn']
      have := ih out (cand ++ [a]) _ hf hint (by omega)
      simpa using this

/-- A table of one entry decodes the zeros before the first 1 (43_codec.md R153 case 2). -/
theorem decode_single (e : Entry) (b : Bits) (out : List Symbol) :
    ∃ tl, decodeLoop (rev [e] [[false]]) out [] b = (out ++ List.replicate (b.findIdx id) e.sym, tl) ∧
      tl.length = b.length - b.findIdx id := by
  induction b generalizing out with
  | nil => exact ⟨[], by simp [decodeLoop], by simp⟩
  | cons a rest ih =>
    cases a with
    | false =>
      obtain ⟨tl, h1, h2⟩ := ih (out ++ [e.sym])
      refine ⟨tl, ?_, ?_⟩
      · rw [decodeLoop]
        have : rev [e] [[false]] ([] ++ [false]) = some e.sym := by simp [rev]
        simp only [this, h1]
        simp [List.findIdx_cons, List.replicate_succ]
      · simp [List.findIdx_cons, h2]
    | true =>
      refine ⟨true :: rest, ?_, ?_⟩
      · rw [decodeLoop_no_match]
        · simp [List.findIdx_cons]
        · intro c hc hne
          cases c with
          | nil => simp at hne
          | cons x xs =>
            have := (List.cons_prefix_cons.1 hc).1
            subst this
            simp [rev]
      · simp [List.findIdx_cons]

/-- What an ENCODE that succeeds has found and written. -/
theorem encode_success {s t : State} {v : Word} (he : exec .encode s = .next t)
    (hp : t.pending = some (Response.mk 0 v)) :
    ∃ ws : List Bits, s.src.map (codewordOf s.ft s.code) = ws.map some ∧ t.bits = ws.flatten ∧ t.ft = s.ft ∧
      t.code = s.code := by
  change execEncode s = _ at he
  unfold execEncode at he
  split at he
  · simp only [fail, Host.Outcome.next.injEq] at he; subst he; simp [Error.code] at hp
  · rcases encodeLoop_cases s.params.bitCap (codewordOf s.ft s.code) [] 0 s.src with
      ⟨ws, h1, h, -⟩ | ⟨j, h⟩ | ⟨⟨c, hc, hn⟩, h⟩ <;> rw [h] at he
    · simp only [done, Host.Outcome.next.injEq] at he; subst he; exact ⟨ws, h1, by simp, rfl, rfl⟩
    · simp only [fail, Host.Outcome.next.injEq] at he; subst he; simp [Error.code] at hp
    · simp at he

/-- Decoding a concatenation of codewords gives their symbols back (43_codec.md R154). -/
theorem roundtrip {src : List Symbol} {ft : List Entry} {code : List Bits} {ws : List Bits} (hpf : PrefixFree code)
    (hne : ∀ c ∈ code, c ≠ [])
    (h : src.map (codewordOf ft code) = ws.map some) : decodeBits ft code ws.flatten = (src, []) := by
  have := decodeLoop_codewords (lookup := rev ft code) (src := src) (ws := ws) ?_ []
  · simpa [decodeBits] using this
  · induction src generalizing ws with
    | nil => cases ws <;> simp at h ⊢
    | cons c src ih =>
      cases ws with
      | nil => simp at h
      | cons w ws =>
        simp only [List.map_cons, List.cons.injEq] at h
        refine List.Forall₂.cons ?_ (ih h.2)
        have hw := h.1
        unfold codewordOf at hw
        obtain ⟨k, hk, hw'⟩ := Option.bind_eq_some_iff.1 hw
        clear hw; rename' hw' => hw
        obtain ⟨e, he, rfl⟩ := entryOf_eq_some hk
        refine ⟨hne w (List.mem_of_getElem? hw), rev_codeword he hw fun j hj => prefixFree_inj hpf hj hw, ?_⟩
        intro p hp hpw _
        cases hr : rev ft code p with
        | none => rfl
        | some c =>
          obtain ⟨j, e', -, hj, -⟩ := rev_eq_some hr
          by_cases hjk : j = k
          · subst hjk; rw [hw] at hj; simp at hj; exact absurd hj.symm hpw
          · exact absurd hp (hpf j k p w hjk hj hw)

end Sys2Proof.Machine
end

