-- ==== Sys2Proof/Laws/Encoding.lean ====
section
/-! SUPPORT. The fields of a packed word, and a word as the pack of its fields (spec 30_encoding.md R80). -/

namespace Sys2Proof

theorem packFields_toNat (op : Nat) (sel : Sel) (arg : Arg) :
    (packFields op sel arg).toNat = (op % 32) * 2 ^ 27 + sel.toNat * 2 ^ 22 + arg.toNat := by
  have h₁ := sel.isLt
  have h₂ := arg.isLt
  simp only [packFields, BitVec.toNat_append, BitVec.toNat_ofNat]
  rw [← Nat.shiftLeft_add_eq_or_of_lt h₂, ← Nat.shiftLeft_add_eq_or_of_lt h₁]
  simp only [Nat.shiftLeft_eq]
  omega

theorem opField_toNat (w : Word) : (opField w).toNat = w.toNat / 2 ^ 27 := by
  have := w.isLt
  simp only [opField, BitVec.extractLsb'_toNat, Nat.shiftRight_eq_div_pow]
  omega

theorem selField_toNat (w : Word) : (selField w).toNat = w.toNat / 2 ^ 22 % 32 := by
  simp only [selField, BitVec.extractLsb'_toNat, Nat.shiftRight_eq_div_pow]

theorem argField_toNat (w : Word) : (argField w).toNat = w.toNat % 2 ^ 22 := by
  simp only [argField, BitVec.extractLsb'_toNat, Nat.shiftRight_zero]

theorem opField_packFields (op : Nat) (sel : Sel) (arg : Arg) :
    opField (packFields op sel arg) = BitVec.ofNat 5 op := by
  have h₁ := sel.isLt
  have h₂ := arg.isLt
  apply BitVec.eq_of_toNat_eq
  rw [opField_toNat, packFields_toNat, BitVec.toNat_ofNat]
  omega

theorem selField_packFields (op : Nat) (sel : Sel) (arg : Arg) : selField (packFields op sel arg) = sel := by
  have h₁ := sel.isLt
  have h₂ := arg.isLt
  apply BitVec.eq_of_toNat_eq
  rw [selField_toNat, packFields_toNat]
  omega

theorem argField_packFields (op : Nat) (sel : Sel) (arg : Arg) : argField (packFields op sel arg) = arg := by
  have h₂ := arg.isLt
  apply BitVec.eq_of_toNat_eq
  rw [argField_toNat, packFields_toNat]
  omega

/-- Every word is the pack of its own fields: no bit of a word lies outside them. -/
theorem packFields_fields (w : Word) : packFields (opField w).toNat (selField w) (argField w) = w := by
  have h := w.isLt
  apply BitVec.eq_of_toNat_eq
  rw [packFields_toNat, opField_toNat, selField_toNat, argField_toNat]
  omega

/-- Decoding a packed word is decoding its fields. -/
theorem decode_packFields (op : Nat) (sel : Sel) (arg : Arg) :
    decode (packFields op sel arg) = decodeFields (BitVec.ofNat 5 op) sel arg := by
  rw [decode, opField_packFields, selField_packFields, argField_packFields]

/-- PUSH.BITS with its operands in range is read back. -/
theorem decodePushBits_of_range {n : Nat} {value : Arg} (h₁ : 1 ≤ n) (h₂ : n ≤ 22) (h₃ : value.toNat < 2 ^ n) :
    decodePushBits (BitVec.ofNat 5 (n - 1)) value = .ok (.pushBits n value) := by
  have hs : (BitVec.ofNat 5 (n - 1)).toNat = n - 1 := by rw [BitVec.toNat_ofNat]; omega
  have hn : n - 1 + 1 = n := by omega
  rw [decodePushBits, hs, if_neg (by omega), hn, if_neg (by omega)]

/-- The two fields of RD.CBITS are read back from its ARG. -/
theorem cbits_fields (k : BitVec 14) (j : BitVec 8) :
    ((j ++ k : BitVec (8 + 14)).extractLsb' 0 14 = k) ∧ ((j ++ k : BitVec (8 + 14)).extractLsb' 14 8 = j) := by
  have h := k.isLt
  have h' := j.isLt
  constructor <;> apply BitVec.eq_of_toNat_eq <;>
    rw [BitVec.extractLsb'_toNat, BitVec.toNat_append, ← Nat.shiftLeft_add_eq_or_of_lt h] <;>
    simp only [Nat.shiftLeft_eq, Nat.shiftRight_eq_div_pow] <;> omega

/-- An ARG is the append of the two fields RD.CBITS reads from it. -/
theorem cbits_append (a : Arg) :
    (a.extractLsb' 14 8 ++ a.extractLsb' 0 14 : BitVec (8 + 14)) = a := by
  have h := a.isLt
  apply BitVec.eq_of_toNat_eq
  rw [BitVec.toNat_append, ← Nat.shiftLeft_add_eq_or_of_lt (BitVec.isLt _)]
  simp only [BitVec.extractLsb'_toNat, Nat.shiftLeft_eq, Nat.shiftRight_eq_div_pow]
  omega

end Sys2Proof
end

