-- ==== Sys2Proof/Laws/PerInstr.lean ====
section
/-! SUPPORT. The family RoundTrip: each well-formed command is read back from its word (spec 30_encoding.md R80 to R84). -/

namespace Sys2Proof.Laws.RoundTrip

/-- A well-formed command is read back from its own word. -/
def Statement (i : Instr) : Prop := WellFormed i → Sys2Proof.decode (Sys2Proof.encode i) = .ok i

theorem nop : Statement .nop := fun _ => decode_packFields 0 0 0
theorem clear (mask : Sel) : Statement (.clear mask) := fun _ => decode_packFields 1 mask 0
theorem pushSym (sym : Arg) : Statement (.pushSym sym) := fun _ => decode_packFields 2 0 sym
theorem pushBits (n : Nat) (value : Arg) : Statement (.pushBits n value) := fun h => by
  simp only [WellFormed, wellFormed, Bool.and_eq_true, decide_eq_true_eq] at h
  exact (decode_packFields 3 _ value).trans (decodePushBits_of_range h.1.1 h.1.2 h.2)
theorem build : Statement .build := fun _ => decode_packFields 4 0 0
theorem encode : Statement .encode := fun _ => decode_packFields 5 0 0
theorem noise (p : Arg) : Statement (.noise p) := fun _ => decode_packFields 6 0 p
theorem decode : Statement .decode := fun _ => decode_packFields 7 0 0
theorem rdReg (r : Arg) : Statement (.rdReg r) := fun _ => decode_packFields 8 0 r
theorem rdSrc (i : Arg) : Statement (.rdSrc i) := fun _ => decode_packFields 8 1 i
theorem rdBits (j : Arg) : Statement (.rdBits j) := fun _ => decode_packFields 8 2 j
theorem rdDst (i : Arg) : Statement (.rdDst i) := fun _ => decode_packFields 8 3 i
theorem rdFsym (k : Arg) : Statement (.rdFsym k) := fun _ => decode_packFields 8 4 k
theorem rdFcnt (k : Arg) : Statement (.rdFcnt k) := fun _ => decode_packFields 8 5 k
theorem rdClen (k : Arg) : Statement (.rdClen k) := fun _ => decode_packFields 8 6 k
theorem rdCbits (k : BitVec 14) (j : BitVec 8) : Statement (.rdCbits k j) := fun _ => by
  have h := cbits_fields k j
  refine (decode_packFields 8 7 _).trans ?_
  change Except.ok (Instr.rdCbits _ _) = _
  rw [h.1, h.2]
theorem rdCof (sym : Arg) : Statement (.rdCof sym) := fun _ => decode_packFields 8 8 sym
theorem rdNkind (x : Arg) : Statement (.rdNkind x) := fun _ => decode_packFields 8 9 x
theorem rdNw (x : Arg) : Statement (.rdNw x) := fun _ => decode_packFields 8 10 x
theorem rdNl (x : Arg) : Statement (.rdNl x) := fun _ => decode_packFields 8 11 x
theorem rdNr (x : Arg) : Statement (.rdNr x) := fun _ => decode_packFields 8 12 x

end Sys2Proof.Laws.RoundTrip
end

