-- ==== Sys2Proof/Laws/Port.lean ====
section
/-! SUPPORT. Which turn a step takes (spec 30_encoding.md R81, 10_state.md R37, 70_reset_and_hazards.md R254, R259). -/

namespace Sys2Proof.Machine

/-- Reset comes before anything else (70_reset_and_hazards.md R250). -/
theorem turn_reset {s : State} (h : s.resetAsserted = true) : turn s = .stay (takeInput s) := by
  unfold turn
  rw [if_pos h]

theorem turn_accept {s : State} {w : Word} {rest : List Word} (h : s.resetAsserted = false) (hp : s.pending = none)
    (hw : s.waiting = none) (ho : s.offered = w :: rest) : turn s = acceptWord w { s with offered := rest } := by
  unfold turn
  simp [h, hw, ho, State.cmdReady, hp]

theorem turn_go_on {s : State} {p : Arg} (h : s.resetAsserted = false) (hw : s.waiting = some p)
    (ho : s.entropy.offers s.bits.length = true) : turn s = .run (.noise p) { s with waiting := none } := by
  unfold turn
  simp [h, hw, ho]

theorem turn_waiting {s : State} {p : Arg} (hw : s.waiting = some p) (ho : s.entropy.offers s.bits.length = false) :
    turn s = .stay (takeInput s) := by
  unfold turn
  simp [hw, ho]

theorem turn_pending {s : State} (hw : s.waiting = none) (hp : s.pending ≠ none) : turn s = .stay (takeInput s) := by
  unfold turn
  rw [hw]
  cases ho : s.offered with
  | nil => simp
  | cons w rest => simp [State.cmdReady, hp]

theorem turn_idle {s : State} (hw : s.waiting = none) (ho : s.offered = []) : turn s = .stay (takeInput s) := by
  unfold turn
  simp [hw, ho]

/-- Reset is asserted exactly when it is the next event. -/
theorem resetAsserted_iff {s : State} : s.resetAsserted = true ↔ ∃ rest, s.inputs = .reset :: rest := by
  unfold State.resetAsserted
  split <;> simp_all

/-- The event of reset is `resetBlock`. -/
theorem takeInput_reset {s : State} {rest : List Input} (h : s.inputs = .reset :: rest) :
    takeInput s = resetBlock { s with inputs := rest } := by
  unfold takeInput
  rw [h]

theorem takeInput_params (s : State) : (takeInput s).params = s.params := by unfold takeInput; split <;> rfl

end Sys2Proof.Machine
end

