-- ==== Sys2Proof/Laws/Weight.lean ====
section
/-! SUPPORT. The weights of the tree and the depths of its nodes (spec 42_build.md R122, R123,
    R127): internal nodes are
made in rising order of weight, so the node with the lesser key is never the higher one in the tree. -/

namespace Sys2Proof.Machine

section
variable {ft : List Entry} (h : 1 ≤ ft.length) (hpos : ∀ e ∈ ft, 1 ≤ e.cnt)
include h

/-- A node's children are older, and their weights sum to its. -/
theorem child_data {x w l r : Nat} (hx : (tree ft)[x]? = some (Node.internal w l r)) :
   l < x ∧ r < x ∧ x < (tree ft).length ∧ (keyOf (tree ft) x).1 = (keyOf (tree ft) l).1 + (keyOf (tree ft) r).1 := by
  obtain ⟨_, ha⟩ := tree_arena h
  refine ⟨ha.child_lt l x ⟨w, l, r, hx, .inl rfl⟩, ha.child_lt r x ⟨w, l, r, hx, .inr rfl⟩,
      (List.getElem?_eq_some_iff.1 hx).1, ?_⟩
  have := (ha.sums x w l r hx).2
  simp [keyOf, hx, Node.weight, this]

include hpos

/-- Every weight is positive (10_state.md R35 point 4). -/
theorem weight_pos (x : Nat) (hx : x < (tree ft).length) : 1 ≤ (keyOf (tree ft) x).1 := by
  obtain ⟨_, ha⟩ := tree_arena h
  induction x using Nat.strongRecOn with
  | ind x ih =>
    rcases Nat.lt_or_ge x ft.length with hlt | hge
    · have := ha.leaves x ft[x] (by simp [hlt])
      simp [keyOf, this, Node.weight]
      exact hpos _ (List.getElem_mem hlt)
    · obtain ⟨w, l, r, hn⟩ := ha.inner x hge hx
      obtain ⟨h1, h2, h3, h4⟩ := child_data h hn
      have := ih l h1 (by omega)
      omega

omit hpos in
/-- An internal node is no heavier than the next one made. -/
theorem weight_mono_succ (x : Nat) (h1 : ft.length ≤ x) (h2 : x + 1 < (tree ft).length) :
   (keyOf (tree ft) x).1 ≤ (keyOf (tree ft) (x+1)).1 := by
  obtain ⟨_, ha⟩ := tree_arena h
  obtain ⟨w, l, r, hx⟩ := ha.inner x h1 (by omega)
  obtain ⟨w', l', r', hx'⟩ := ha.inner (x+1) (by omega) h2
  obtain ⟨g1, g2, g3, g4⟩ := ha.greedy _ _ _ _ hx
  obtain ⟨k1, k2, k3, k4⟩ := ha.greedy _ _ _ _ hx'
  obtain ⟨c1, c2, c3, c4⟩ := child_data h hx
  obtain ⟨d1, d2, d3, d4⟩ := child_data h hx'
  have key : ∀ y, InQueueAt (tree ft) y (x+1) → (keyOf (tree ft) r).1 ≤ (keyOf (tree ft) y).1 := by
    intro y hy
    rcases Nat.lt_or_ge y x with hlt | hge
    · have hq : InQueueAt (tree ft) y x := ⟨hlt, fun z hz => hy.2 z (by omega)⟩
      have hl : y ≠ l := fun e => hy.2 x (by omega) ⟨w, l, r, hx, .inl e⟩
      have hr : y ≠ r := fun e => hy.2 x (by omega) ⟨w, l, r, hx, .inr e⟩
      have := g4 y hq hl hr
      rw [Key.before_iff] at this
      omega
    · have : y = x := by have := hy.1; omega
      subst this; omega
  have := key _ k1
  have := key _ k2
  rw [Key.before_iff] at g3
  omega

omit hpos in
/-- Internal nodes are made in rising order of weight. -/
theorem weight_mono (x y : Nat) (h1 : ft.length ≤ x) (hxy : x ≤ y) (h2 : y < (tree ft).length) :
   (keyOf (tree ft) x).1 ≤ (keyOf (tree ft) y).1 := by
  induction y, hxy using Nat.le_induction with
  | base => exact le_rfl
  | succ n hn ih => exact (ih (by omega)).trans (weight_mono_succ h n (by omega) h2)

/-- A child is lighter than its parent. -/
theorem weight_child_lt {x y : Nat} (hc : IsChild (tree ft) y x) : (keyOf (tree ft) y).1 < (keyOf (tree ft) x).1 := by
  obtain ⟨w, l, r, hx, hy⟩ := hc
  obtain ⟨c1, c2, c3, c4⟩ := child_data h hx
  have p1 := weight_pos h hpos l (by omega)
  have p2 := weight_pos h hpos r (by omega)
  rcases hy with rfl | rfl <;> omega

omit hpos in
theorem parent_internal {x y : Nat} (hc : IsChild (tree ft) y x) : ft.length ≤ x ∧ x < (tree ft).length := by
  obtain ⟨w, l, r, hx, hy⟩ := hc
  exact ⟨tree_internal_ge h hx, (List.getElem?_eq_some_iff.1 hx).1⟩

/-- The parent of the node with the lesser key is not the younger one. -/
theorem parent_le {y z py pz : Nat} (hk : Key.before (keyOf (tree ft) y) (keyOf (tree ft) z) = true)
   (hy : IsChild (tree ft) y py) (hz : IsChild (tree ft) z pz) : py ≤ pz := by
  by_contra hlt
  have hone := tree_one_parent h
  have hpz := parent_internal h hz
  have hpy := parent_internal h hy
  have hw := weight_child_lt h hpos hz
  have hylt := tree_child_lt h _ _ hy
  obtain ⟨_, ha⟩ := tree_arena h
  have hq : InQueueAt (tree ft) y pz := by
    refine ⟨?_, fun x hx hc => ?_⟩
    · by_contra hge
      have := weight_mono h pz y hpz.1 (by omega) (by omega)
      rw [Key.before_iff] at hk; omega
    · have := hone _ _ _ hc hy; omega
  obtain ⟨w, l, r, hx, hlr⟩ := hz
  have hyl : y ≠ l := fun e => by have := hone y _ _ hy ⟨w, l, r, hx, .inl e⟩; omega
  have hyr : y ≠ r := fun e => by have := hone y _ _ hy ⟨w, l, r, hx, .inr e⟩; omega
  obtain ⟨g1, g2, g3, g4⟩ := ha.greedy _ _ _ _ hx
  have hb := g4 y hq hyl hyr
  have : Key.before (keyOf (tree ft) z) (keyOf (tree ft) y) = true := by
    rcases hlr with rfl | rfl
    · exact Key.before_trans g3 hb
    · exact hb
  have := Key.before_trans this hk
  rw [Key.before_irrefl] at this; simp at this

/-- The node with the lesser key is not the higher one in the tree (42_build.md R127 property 5). -/
theorem depth_le (b bz : Bits) {y z : Nat} (hy : follow (tree ft) (rootOf (tree ft)) b = some y)
   (hz : follow (tree ft) (rootOf (tree ft)) bz = some z)
   (hk : Key.before (keyOf (tree ft) y) (keyOf (tree ft) z) = true) : bz.length ≤ b.length := by
  induction bz using List.reverseRecOn generalizing b y z with
  | nil => simp
  | append_singleton bz c ih =>
    obtain ⟨pz, w, l, r, hpz, hn, hzc⟩ := follow_snoc hz
    have hcz : IsChild (tree ft) z pz := hzc ▸ isChild_of_bit hn c
    have hwz := weight_child_lt h hpos hcz
    have hpi := parent_internal h hcz
    rcases List.eq_nil_or_concat b with rfl | ⟨a, d, rfl⟩
    · simp only [follow, Option.some.injEq] at hy
      have := weight_mono h pz y hpi.1 (by rw [← hy, rootOf]; omega) (by rw [← hy, rootOf]; omega)
      rw [Key.before_iff] at hk; omega
    · rw [List.concat_eq_append] at *
      obtain ⟨py, w', l', r', hpy, hn', hyc⟩ := follow_snoc hy
      have hcy : IsChild (tree ft) y py := hyc ▸ isChild_of_bit hn' d
      have hle := parent_le h hpos hk hcy hcz
      simp only [List.length_append, List.length_cons, List.length_nil]
      rcases Nat.eq_or_lt_of_le hle with rfl | hlt
      · have := follow_unique (tree_child_lt h) (tree_one_parent h) (tree_distinct_children h) hpy hpz
        simp [this]
      · have := ih a hpy hpz (by
          rw [Key.before_iff]
          have := weight_mono h py pz (parent_internal h hcy).1 hle hpi.2
          simp only [keyOf] at *; omega)
        omega

end

/-- The weight of the root is the sum of the counts (45_read.md R190). -/
theorem rootWeight {ft : List Entry} (h : 1 ≤ ft.length) : ∃ n, (tree ft)[rootOf (tree ft)]? = some n ∧
    n.weight = totalCount ft := by
  obtain ⟨w, ha⟩ := tree_arena h
  have ht := ha.total
  simp at ht
  have hk := ha.keys _ (List.mem_singleton.2 rfl)
  simp at hk
  refine ⟨(tree ft)[rootOf (tree ft)], by simp [hk.1], ?_⟩
  have := congrArg Prod.fst hk.2
  simp [keyOf, hk.1] at this
  rw [this, ht]

theorem totalCount_mem {ft : List Entry} {e : Entry} (h : e ∈ ft) : e.cnt ≤ totalCount ft :=
  List.single_le_sum (by simp) _ (List.mem_map_of_mem h)

/-- Every weight is positive and at most the sum of the counts (10_state.md R35 point 4). -/
theorem node_weight_bounds {ft : List Entry} (h : 1 ≤ ft.length) (hpos : ∀ e ∈ ft, 1 ≤ e.cnt) : ∀ n ∈ tree ft,
    1 ≤ n.weight ∧ n.weight ≤ totalCount ft := by
  intro n hn
  obtain ⟨x, hx⟩ := List.getElem?_of_mem hn
  have hxl := (List.getElem?_eq_some_iff.1 hx).1
  have hk : n.weight = (keyOf (tree ft) x).1 := by simp [keyOf, hx]
  refine ⟨by rw [hk]; exact weight_pos h hpos x hxl, ?_⟩
  rcases Nat.lt_or_ge x ft.length with hlt | hge
  · obtain ⟨_, ha⟩ := tree_arena h
    have := ha.leaves x ft[x] (by simp [hlt])
    rw [hx] at this; simp at this; subst this
    exact totalCount_mem (List.getElem_mem hlt)
  · obtain ⟨m, hm, hw⟩ := rootWeight h
    rw [← hw, hk]
    have := weight_mono h x (rootOf (tree ft)) hge (by rw [rootOf]; omega) (List.getElem?_eq_some_iff.1 hm).1
    simpa [keyOf, hm] using this

end Sys2Proof.Machine
end

