-- ==== Sys2Proof/Tests/Slice0.lean ====
section
/-! SUPPORT. The model's own tests. Every expected result is a vector of spec/95_test_vectors.md or an example of the rule
named, none is the model's own answer. After them, one witness for every statement of Obligations.lean with hypotheses. -/

open Sys2Proof Sys2Proof.Machine Sys2Proof.Claims

namespace Sys2Proof.Tests

/-! ## WellFormed -/

theorem test_wf_pushBits_zero_refused : wellFormed (.pushBits 0 0) = false := by decide
theorem test_wf_pushBits_twentythree_refused : wellFormed (.pushBits 23 0) = false := by decide
theorem test_wf_pushBits_wide_value_refused : wellFormed (.pushBits 1 2) = false := by decide
theorem test_wf_pushBits_full : wellFormed (.pushBits 22 0x3FFFFF) = true := by decide

/-! ## Decoding: one word of each command, written out from 30_encoding.md R80 to R84 -/

theorem test_decode_control :
    decode 0b00000_00000_0000000000000000000000#32 = .ok .nop ∧
    decode 0b00001_11111_0000000000000000000000#32 = .ok (.clear 0x1F) := by decide

theorem test_decode_load :
    decode 0b00010_00000_0100001111111111111111#32 = .ok (.pushSym 0x10FFFF) ∧
    decode 0b00011_00011_0000000000000000000010#32 = .ok (.pushBits 4 2) ∧
    decode 0b00011_10101_1111111111111111111111#32 = .ok (.pushBits 22 0x3FFFFF) := by decide

theorem test_decode_build : decode 0b00100_00000_0000000000000000000000#32 = .ok .build := by decide

theorem test_decode_codec :
    decode 0b00101_00000_0000000000000000000000#32 = .ok .encode ∧
    decode 0b00111_00000_0000000000000000000000#32 = .ok .decode := by decide

theorem test_decode_noise : decode 0b00110_00000_0000001000000000000000#32 = .ok (.noise 0x8000) := by decide

theorem test_decode_read_buffers :
    decode 0b01000_00000_0000000000000000000101#32 = .ok (.rdReg 5) ∧
    decode 0b01000_00001_0000000000000000001001#32 = .ok (.rdSrc 9) ∧
    decode 0b01000_00010_0000000000000000000001#32 = .ok (.rdBits 1) ∧
    decode 0b01000_00011_0000000000000000000011#32 = .ok (.rdDst 3) := by decide

theorem test_decode_read_table :
    decode 0b01000_00100_0000000000000000000100#32 = .ok (.rdFsym 4) ∧
    decode 0b01000_00101_0000000000000000000010#32 = .ok (.rdFcnt 2) ∧
    decode 0b01000_00110_0000000000000000000000#32 = .ok (.rdClen 0) ∧
    decode 0b01000_00111_0000000100000000000010#32 = .ok (.rdCbits 2 1) ∧
    decode 0b01000_01000_0000000000000001000011#32 = .ok (.rdCof 0x43) := by decide

theorem test_decode_read_tree :
    decode 0b01000_01001_0000000000000000000011#32 = .ok (.rdNkind 3) ∧
    decode 0b01000_01010_0000000000000000000110#32 = .ok (.rdNw 6) ∧
    decode 0b01000_01011_0000000000000000000101#32 = .ok (.rdNl 5) ∧
    decode 0b01000_01100_0000000000000000000100#32 = .ok (.rdNr 4) := by decide

/-- Vectors K2, K3, K5, L6, L12, L13, L14, B14, B15, N7, C16, D6 and P4: each illegal word, with the clause of R85. -/
theorem test_decode_illegal :
    decode 0x00000001 = .error .fieldNotZero ∧ decode 0x00400000 = .error .fieldNotZero ∧
    decode 0x08000001 = .error .clearArgNotZero ∧ decode 0x10400041 = .error .selNotZero ∧
    decode 0x18000002 = .error .valueTooWide ∧ decode 0x1D800000 = .error .tooManyBits ∧
    decode 0x1FC00000 = .error .tooManyBits ∧ decode 0x20400000 = .error .fieldNotZero ∧
    decode 0x20000001 = .error .fieldNotZero ∧ decode 0x30400000 = .error .selNotZero ∧
    decode 0x28400000 = .error .fieldNotZero ∧ decode 0x38000001 = .error .fieldNotZero ∧
    decode 0x43400000 = .error .reservedSpace ∧ decode 0x47C00000 = .error .reservedSpace ∧
    decode 0xF8000000 = .error .reservedOpcode := by decide

/-- The host's table words: a row's word, an illegal one, and bits above the row's. -/
theorem test_decodeTableWord :
    decodeTableWord 32 0x43000004 = some (.rdNr 4) ∧ decodeTableWord 32 0x00000001 = none ∧
    decodeTableWord 32 0x120000000 = some .build := by decide

/-! ## States for the tests -/

def syms (l : List Nat) : List Symbol := l.map fun n => Fin.ofNat 0x110000 n
def bitsOf (l : List Nat) : Bits := l.map (· == 1)
def withSrc (l : List Nat) : State := { State.reset with src := syms l }
def withBits (l : List Nat) : State := { State.reset with bits := bitsOf l }
def withDraws (l : List Nat) (d : List Nat) : State :=
  { withBits l with entropy := { fixed := d.map (BitVec.ofNat 16), taken := 0, left := none } }
def ent (c n : Nat) : Entry := { sym := Fin.ofNat 0x110000 c, cnt := n }
def leafN (c n : Nat) : Node := .leaf (Fin.ofNat 0x110000 c) n

/-- "AAAABBBCCD", the text of vector B1. -/
def textB1 : List Nat := [0x41, 0x41, 0x41, 0x41, 0x42, 0x42, 0x42, 0x43, 0x43, 0x44]

def ftB1 : List Entry := [ent 0x41 4, ent 0x42 3, ent 0x43 2, ent 0x44 1]
def nodeB1 : List Node :=
  [leafN 0x41 4, leafN 0x42 3, leafN 0x43 2, leafN 0x44 1, .internal 3 3 2, .internal 6 1 4, .internal 10 0 5]
def codeB1 : List Bits := [bitsOf [0], bitsOf [1, 0], bitsOf [1, 1, 1], bitsOf [1, 1, 0]]
def bitsB1 : Bits := bitsOf [0, 0, 0, 0, 1, 0, 1, 0, 1, 0, 1, 1, 1, 1, 1, 1, 1, 1, 0]

/-- The state after BUILD of vector B1. -/
def builtB1 : State := { withSrc textB1 with ft := ftB1, node := nodeB1, code := codeB1 }
/-- The end state of program P1, but for its last responses. -/
def endP1 : State := { builtB1 with bits := bitsB1, dst := syms textB1 }
/-- The state after BUILD of vector B2, "aaaa". -/
def builtB2 : State :=
  { withSrc [0x61, 0x61, 0x61, 0x61] with ft := [ent 0x61 4], node := [leafN 0x61 4], code := [bitsOf [0]] }

/-- The state a command ends in. -/
def after (i : Instr) (s : State) : State :=
  match exec i s with
  | .next t => t
  | _ => s

/-- The response a command gives, as numbers. -/
def got (i : Instr) (s : State) : Option (Nat × Nat) :=
  match exec i s with
  | .next t => t.pending.map fun r => (r.code.toNat, r.data.toNat)
  | _ => none

/-! ## Meanings, one step each -/

/-- Vector K1. -/
theorem test_nop : exec .nop State.reset = okWith 0 State.reset := rfl

/-- Vectors K4 and K8: the error record stays, and is cleared. -/
theorem test_clear_error :
    (after (.clear 0) { State.reset with errcode := 6, errinfo := 1 }).errcode = 6 ∧
    (after (.clear 0x10) { State.reset with errcode := 6, errinfo := 1 }).errcode = 0 := by decide
/-- Vector K6: the table is emptied and SRC is kept. -/
theorem test_clear_table :
    (after (.clear 8) builtB1).node = [] ∧ (after (.clear 8) builtB1).src = syms textB1 := by decide

/-- Vectors L1 to L3 and L4. -/
theorem test_pushSym :
    got (.pushSym 0x10FFFF) (withSrc [0]) = some (0, 2) ∧ got (.pushSym 0x110000) (withSrc [0]) = some (8, 0) := by
  decide
/-- Vectors L7 and L8: INVALID_SYMBOL comes before CAPACITY. -/
theorem test_pushSym_full :
    got (.pushSym 0x43) { withSrc [0x41, 0x42] with params := { Params.default with srcCap := 2 } } = some (4, 0) ∧
    got (.pushSym 0x110000) { withSrc [0x41, 0x42] with params := { Params.default with srcCap := 2 } } =
      some (8, 0) := by decide

/-- The example of 41_load.md R111, onto a stream that is not empty. -/
theorem test_pushBits :
    (after (.pushBits 4 2) (withBits [1])).bits = bitsOf [1, 0, 0, 1, 0] ∧
    got (.pushBits 4 2) (withBits [1]) = some (0, 5) := by decide
/-- Vectors L17 and L18, with 30 bits in 32. -/
theorem test_pushBits_full :
    (after (.pushBits 3 5) { State.reset with
      bits := List.replicate 30 false, params := { Params.default with bitCap := 32 } }).errinfo = 30 ∧
    got (.pushBits 2 3) { State.reset with
      bits := List.replicate 30 false, params := { Params.default with bitCap := 32 } } = some (0, 32) := by decide

/-- Vector B1: FT, NODE and CODE. -/
theorem test_build : exec .build (withSrc textB1) = okWith 4 builtB1 := rfl
/-- Vector B6: a leaf is taken before a heavier node, whatever its place. -/
theorem test_build_order : (after .build (withSrc [0x41, 0x42, 0x43])).code = [bitsOf [1, 0], bitsOf [1, 1], bitsOf [0]] := by
  decide

/-- Vector B1: the bits of ENCODE. -/
theorem test_encode : (after .encode builtB1).bits = bitsB1 ∧ got .encode builtB1 = some (0, 19) := by decide
/-- As vectors C4 and C5, on the table of B1: the least SRC index of a symbol with no entry, and the first codeword that
does not fit (by hand: the last of the 19 bits are D's three). -/
theorem test_encode_errors :
    (after .encode { builtB1 with src := syms [0x41, 0x42, 0x45, 0x46] }).errinfo = 2 ∧
    (after .encode { builtB1 with params := { Params.default with bitCap := 18 } }).errinfo = 9 := by decide

/-- Vector C7: the trailing fragment. -/
theorem test_decode_trailing :
    (after .decode { builtB1 with bits := bitsB1 ++ bitsOf [1, 1] }).dst = syms textB1 ∧
    (after .decode { builtB1 with bits := bitsB1 ++ bitsOf [1, 1] }).tail = 2 := by decide
/-- Vector C11: one entry. -/
theorem test_decode_single :
    (after .decode { builtB2 with bits := bitsOf [0, 0, 1, 0] }).dst = syms [0x61, 0x61] ∧
    (after .decode { builtB2 with bits := bitsOf [0, 0, 1, 0] }).tail = 2 := by decide

/-- Vector N3: the example of 44_noise.md R170. -/
theorem test_noise :
    (after (.noise 0x8000) (withDraws [0, 1, 1, 0] [0, 0xFFFF, 0x7FFF, 0x8000])).bits = bitsOf [1, 1, 0, 0] ∧
    got (.noise 0x8000) (withDraws [0, 1, 1, 0] [0, 0xFFFF, 0x7FFF, 0x8000]) = some (0, 2) := by decide
/-- Vector N6: the error, with no draw taken. -/
theorem test_noise_error :
    got (.noise 0x10001) (withDraws [0, 1, 1, 0] []) = some (3, 0) ∧
    (after (.noise 0x10001) (withDraws [0, 1, 1, 0] [])).entropy.taken = 0 := by decide

/-- 10_state.md R33 on the end state of P1: BITLEN, TOTAL and MAXLEN. -/
theorem test_rdReg :
    got (.rdReg 5) endP1 = some (0, 19) ∧ got (.rdReg 10) endP1 = some (0, 10) ∧ got (.rdReg 11) endP1 = some (0, 3) := by
  decide
/-- Vectors D1, D3 and the state of B18: ID, BAD_INDEX and STATUS with both flags. -/
theorem test_rdReg_corners :
    got (.rdReg 0) State.reset = some (0, 0x48554631) ∧ got (.rdReg 16) State.reset = some (7, 0) ∧
    got (.rdReg 1) { builtB1 with errcode := 1 } = some (0, 3) := by decide
/-- The example of 45_read.md R181. -/
theorem test_rdSrc : got (.rdSrc 9) endP1 = some (0, 0x44) ∧ got (.rdSrc 10) endP1 = some (7, 0) := by decide
/-- The examples of 45_read.md R182. -/
theorem test_rdBits : got (.rdBits 0) endP1 = some (0, 0x0ABFC000) ∧ got (.rdBits 1) endP1 = some (7, 0) := by decide
/-- DST after P1 (45_read.md R183). -/
theorem test_rdDst : got (.rdDst 9) endP1 = some (0, 0x44) ∧ got (.rdDst 10) endP1 = some (7, 0) := by decide
/-- FT of vector B1 (45_read.md R184). -/
theorem test_rdFsym : got (.rdFsym 3) endP1 = some (0, 0x44) ∧ got (.rdFsym 4) endP1 = some (7, 0) := by decide
/-- FT of vector B1 (45_read.md R185). -/
theorem test_rdFcnt : got (.rdFcnt 1) endP1 = some (0, 3) ∧ got (.rdFcnt 4) endP1 = some (7, 0) := by decide
/-- CODE of vector B1 (45_read.md R186), and vector D11. -/
theorem test_rdClen : got (.rdClen 2) endP1 = some (0, 3) ∧ got (.rdClen 0) builtB2 = some (0, 1) := by decide
/-- Program P1: the codeword "111" of C. -/
theorem test_rdCbits : got (.rdCbits 2 0) endP1 = some (0, 0xE0000000) := by decide
/-- Vector D12: ERRINFO holds both fields. -/
theorem test_rdCbits_index : (after (.rdCbits 0 1) builtB2).errinfo = 0x4000 := by decide
/-- The examples of 45_read.md R188. -/
theorem test_rdCof : got (.rdCof 0x43) endP1 = some (0, 2) ∧ (after (.rdCof 0x45) endP1).errinfo = 0x45 := by decide
/-- The examples of 45_read.md R189. -/
theorem test_rdNkind : got (.rdNkind 3) endP1 = some (0, 0x80000044) ∧ got (.rdNkind 6) endP1 = some (0, 0) := by decide
/-- The examples of 45_read.md R190. -/
theorem test_rdNw : got (.rdNw 6) endP1 = some (0, 10) ∧ got (.rdNw 4) endP1 = some (0, 3) := by decide
/-- The examples of 45_read.md R191. -/
theorem test_rdNl : got (.rdNl 5) endP1 = some (0, 1) ∧ got (.rdNl 0) endP1 = some (0, 0xFFFFFFFF) := by decide
/-- The examples of 45_read.md R192. -/
theorem test_rdNr : got (.rdNr 4) endP1 = some (0, 2) ∧ (after (.rdNr 7) endP1).errinfo = 7 := by decide

/-- Vector L1, through the ports: the word offered is the next step's command. -/
theorem test_step_offered :
    step (State.reset.withFetchWord 32 0x10000000) = okWith 1 (withSrc [0]) := rfl
/-- 70_reset_and_hazards.md R250: a reset that is asserted comes before the word offered, and after an idle event it does
not. -/
theorem test_step_reset_first :
    step { endP1 with offered := [0x20000000], inputs := [.reset] } =
      .next { State.reset with offered := [0x20000000] } ∧
    step { withSrc textB1 with offered := [0x20000000], inputs := [.idle, .reset] } =
      okWith 4 { builtB1 with inputs := [.idle, .reset] } := ⟨rfl, rfl⟩
/-- A table word is the next step's command even where reset was next. -/
theorem test_withFetchWord_reset :
    step (({ State.reset with inputs := [.reset] } : State).withFetchWord 32 0x10000000) =
      okWith 1 { withSrc [0] with inputs := [.idle, .reset] } := rfl
/-- Vector K2, through the ports. -/
theorem test_step_illegal :
    step (State.reset.withFetchWord 32 0x00000001) = errWith 6 1 State.reset := rfl

/-! ## Witnesses: for each statement with hypotheses, a state and operands that meet them all -/

/-- The state after BUILD of vector B1 meets the invariant. -/
theorem test_inv_builtB1 : Inv builtB1 where
  params_legal := ⟨by decide, by decide, by decide⟩
  src_le := by decide
  bits_le := by decide
  dst_le := by decide
  tail_le := by decide
  table := .inr ⟨by decide, by decide, by decide, by decide, by decide, by decide, by decide⟩
  errcode_le := by decide
  response_le := nofun
  waiting_ok := nofun

/-- The same with other buffers that fit. -/
theorem inv_buffers {s : State} (h : Inv s) (src dst : List Symbol) (bits : Bits) (h₁ : src.length ≤ s.params.srcCap)
    (h₂ : bits.length ≤ s.params.bitCap) (h₃ : dst.length ≤ s.params.dstCap) :
    Inv { s with src := src, bits := bits, dst := dst } :=
  ⟨h.params_legal, h₁, h₂, h₃, h.tail_le, table_frame h.table rfl rfl rfl rfl, h.errcode_le, h.response_le, h.waiting_ok⟩

theorem test_inv_endP1 : Inv endP1 :=
  inv_buffers test_inv_builtB1 _ _ _ (by decide) (by decide) (by decide)

theorem test_inv_builtB2 : Inv builtB2 where
  params_legal := ⟨by decide, by decide, by decide⟩
  src_le := by decide
  bits_le := by decide
  dst_le := by decide
  tail_le := by decide
  table := .inr ⟨by decide, by decide, by decide, by decide, by decide, by decide, by decide⟩
  errcode_le := by decide
  response_le := nofun
  waiting_ok := nofun

theorem test_inv_reset : Inv State.reset where
  params_legal := ⟨by decide, by decide, by decide⟩
  src_le := by decide
  bits_le := by decide
  dst_le := by decide
  tail_le := by decide
  table := .inl ⟨rfl, rfl, rfl⟩
  errcode_le := by decide
  response_le := nofun
  waiting_ok := nofun

theorem test_witness_DecodeOfEncodedCommand :
    WellFormed (.pushBits 1 1) ∧ WellFormed (.pushBits 22 0x3FFFFF) ∧ WellFormed (.rdCbits 0x3FFF 0xFF) := by decide

theorem test_witness_EncodeOfDecodedWord : decode 0x1D7FFFFF = .ok (.pushBits 22 0x3FFFFF) := by decide

/-- Each clause of R85 at the edge of its range. -/
theorem test_witness_IllegalWord :
    IllegalWord 0x48000000 ∧ IllegalWord 0x20400000 ∧ IllegalWord 0x08000001 ∧ IllegalWord 0x30400000 ∧
    IllegalWord 0x1D800000 ∧ IllegalWord 0x18000002 ∧ IllegalWord 0x43400000 := by
  refine ⟨?_, ?_, ?_, ?_, ?_, ?_, ?_⟩ <;> simp only [IllegalWord] <;> decide

theorem test_witness_StepRunsOfferedCommand :
    Ready { State.reset with offered := [0x20000000] } ∧
    { State.reset with offered := [0x20000000] }.resetAsserted = false ∧ decode 0x20000000 = .ok .build :=
  ⟨⟨rfl, rfl⟩, rfl, by decide⟩

theorem test_witness_IllegalWordRaisesIllegalCommand :
    Ready { State.reset with offered := [0xF8000000, 0], inputs := [.take] } ∧
    { State.reset with offered := [0xF8000000, 0], inputs := [.take] }.resetAsserted = false ∧ IllegalWord 0xF8000000 :=
  ⟨⟨rfl, rfl⟩, rfl, by simp only [IllegalWord]; decide⟩

/-- A NOISE that waits, and whose draws are there: as many as BITS has bits. -/
def waitingState (left : Nat) : State :=
  { withBits [0, 1, 1, 0] with
    waiting := some 0x8000, entropy := { fixed := [], taken := 0, left := some left } }

theorem test_witness_WaitingNoiseGoesOn :
    (waitingState 4).resetAsserted = false ∧ (waitingState 4).waiting = some 0x8000 ∧
    (waitingState 4).entropy.offers (waitingState 4).bits.length = true := by
  decide

/-- Each way to be blocked, with each event. -/
theorem test_witness_BlockedStepRunsNoCommand :
    Blocked State.reset ∧ Blocked { State.reset with inputs := [.offer 0] } ∧
    Blocked { State.reset with pending := some { code := 0, data := 1 }, offered := [0], inputs := [.take] } ∧
    Blocked { waitingState 3 with inputs := [.draws 1] } ∧ Blocked { waitingState 3 with inputs := [.idle] } :=
  ⟨.inr ⟨rfl, .inr rfl⟩, .inr ⟨rfl, .inr rfl⟩, .inr ⟨rfl, .inl nofun⟩, .inl ⟨nofun, by decide⟩,
    .inl ⟨nofun, by decide⟩⟩

/-- Reset with a word ready to be accepted; with a NOISE that waits for one draw more, or whose draws are all there; and with
a source that never stops. -/
theorem test_witness_ResetFromEveryState :
    ({ endP1 with offered := [0x20000000], inputs := [.reset] } : State).inputs = .reset :: [] ∧ endP1.waiting = none ∧
    (waitingState 3).waiting ≠ none ∧ (waitingState 3).entropy.left = some 3 ∧
    (waitingState 4).waiting ≠ none ∧ (waitingState 4).entropy.left = some 4 ∧
    { withBits [0] with waiting := some 0 }.waiting ≠ none ∧
    { withBits [0] with waiting := some 0 }.entropy.left = none := ⟨rfl, rfl, nofun, rfl, nofun, rfl, nofun, rfl⟩

theorem test_witness_EveryCommandAnswers :
    Ready builtB1 ∧ exec .nop builtB1 = .next (after .nop builtB1) := ⟨⟨rfl, rfl⟩, rfl⟩

/-- The edges: 0x10FFFF, 0x110000, a full SRC. -/
theorem test_witness_PushSymAppendsOneSymbol :
    0x10FFFF < (0x110000 : Arg).toNat ∧ (0x10FFFF : Arg).toNat ≤ 0x10FFFF ∧
    (withSrc [0x41]).src.length ≠ (withSrc [0x41]).params.srcCap ∧
    { withSrc [0x41] with params := { Params.default with srcCap := 1 } }.src.length =
      { withSrc [0x41] with params := { Params.default with srcCap := 1 } }.params.srcCap := by decide

/-- A BITS of 30 bits in 32, which 2 bits fill and 3 overflow. -/
def thirtyBits : State :=
  { State.reset with bits := List.replicate 30 false, params := { Params.default with bitCap := 32 } }

theorem test_witness_PushBitsAppendsMostSignificantFirst :
    thirtyBits.params.bitCap < thirtyBits.bits.length + 3 ∧ thirtyBits.bits.length + 2 ≤ thirtyBits.params.bitCap := by
  decide

/-- Vectors B1, B13 and B16. -/
theorem test_witness_BuildWritesWholeTable :
    State.reset.src = [] ∧ (withSrc textB1).src ≠ [] ∧ freqTable 256 (syms textB1) = .ok ftB1 ∧
    freqTable 2 (syms [0x41, 0x42, 0x41, 0x43]) = .error 3 ∧
    (syms textB1).dedup.length ≤ (withSrc textB1).params.nSym :=
  ⟨rfl, by decide, rfl, rfl, by decide⟩

theorem test_witness_FreqTableCountsOccurrences : freqTable 256 (syms textB1) = .ok ftB1 := rfl

/-- A tie of weights. -/
theorem test_witness_PopMinTakesTheLeastKey : popMin [(2, 3), (1, 2), (1, 1)] = some ((1, 1), [(2, 3), (1, 2)]) := by
  decide

theorem test_witness_TreeIsStrictlyBinary :
    1 ≤ ftB1.length ∧ ftB1[3]? = some (ent 0x44 1) ∧ ftB1.length ≤ 4 ∧ 4 < (tree ftB1).length ∧
    5 < rootOf (tree ftB1) := by decide

theorem test_witness_TreeJoinsTheTwoLeastNodes :
    1 ≤ ftB1.length ∧ (tree ftB1)[5]? = some (Node.internal 6 1 4) := by decide

theorem test_witness_CodewordsAreRootPaths : 2 ≤ ftB1.length ∧ 3 < ftB1.length ∧ [ent 0x61 4].length = 1 := by decide

theorem test_witness_CodewordsArePrefixFree :
    Inv builtB1 ∧ builtB1.ft[2]? = some (ent 0x43 2) ∧ builtB1.code[2]? = some (bitsOf [1, 1, 1]) :=
  ⟨test_inv_builtB1, rfl, rfl⟩

/-- A table, one of its longest codewords, and no table. -/
theorem test_witness_CodewordLengthsBounded :
    (Inv builtB1 ∧ bitsOf [1, 1, 0] ∈ builtB1.code ∧ builtB1.ft ≠ []) ∧ (Inv State.reset ∧ State.reset.ft = []) :=
  ⟨⟨test_inv_builtB1, by decide, by decide⟩, test_inv_reset, rfl⟩

theorem test_witness_CodeIsComplete :
    Inv builtB1 ∧ 2 ≤ builtB1.ft.length ∧ builtB1.maxlen ≤ (bitsOf [1, 1, 0]).length :=
  ⟨test_inv_builtB1, by decide, by decide⟩

theorem test_witness_HigherCountNeverLongerCodeword :
    Inv builtB1 ∧ builtB1.ft[1]? = some (ent 0x42 3) ∧ builtB1.ft[3]? = some (ent 0x44 1) ∧
    builtB1.code[1]? = some (bitsOf [1, 0]) ∧ builtB1.code[3]? = some (bitsOf [1, 1, 0]) ∧
    (ent 0x44 1).cnt < (ent 0x42 3).cnt := ⟨test_inv_builtB1, rfl, rfl, rfl, rfl, by decide⟩

theorem test_witness_RootWeightIsTotal : Inv builtB1 ∧ builtB1.ft ≠ [] := ⟨test_inv_builtB1, by decide⟩

theorem test_witness_EncodeConcatenatesCodewords :
    ({ builtB1 with src := syms [0x42, 0x41] } : State).src.map
        (fun c => (entryOf builtB1.ft c).bind fun k => builtB1.code[k]?) = [bitsOf [1, 0], bitsOf [0]].map some ∧
    [bitsOf [1, 0], bitsOf [0]].flatten.length ≤ builtB1.params.bitCap := by decide

/-- An unknown second symbol, "AE"; and, in a BITS of 4 bits, a codeword that would end one bit beyond, "BC". -/
theorem test_witness_EncodeErrorsAtLeastIndex :
    ((∀ d ∈ syms [0x41], d ∈ builtB1.ft.map Entry.sym) ∧ (Fin.ofNat 0x110000 0x45 : Symbol) ∉ builtB1.ft.map Entry.sym) ∧
    ((∀ d ∈ syms [0x42, 0x43], d ∈ builtB1.ft.map Entry.sym) ∧
      (syms [0x42]).map (fun c => (entryOf builtB1.ft c).bind fun k => builtB1.code[k]?) = [bitsOf [1, 0]].map some ∧
      ((entryOf builtB1.ft (Fin.ofNat 0x110000 0x43)).bind fun k => builtB1.code[k]?) = some (bitsOf [1, 1, 1]) ∧
      [bitsOf [1, 0]].flatten.length ≤ 4 ∧ 4 < [bitsOf [1, 0]].flatten.length + (bitsOf [1, 1, 1]).length) :=
  ⟨⟨List.forall_mem_cons.2 ⟨by decide, nofun⟩, by decide⟩,
    List.forall_mem_cons.2 ⟨by decide, List.forall_mem_cons.2 ⟨by decide, nofun⟩⟩, by decide, by decide, by decide,
    by decide⟩

/-- No entry, one entry, and more. -/
theorem test_witness_DecodeWalksTheTree :
    (Inv State.reset ∧ State.reset.ft = []) ∧ (Inv builtB2 ∧ builtB2.ft = [ent 0x61 4]) ∧
    (Inv endP1 ∧ 2 ≤ endP1.ft.length) :=
  ⟨⟨test_inv_reset, rfl⟩, ⟨test_inv_builtB2, rfl⟩, ⟨test_inv_endP1, by decide⟩⟩

/-- SRC "AAAABBBCCD" before its BUILD. -/
theorem test_inv_textB1 : Inv (withSrc textB1) :=
  inv_buffers test_inv_reset (syms textB1) [] [] (by decide) (by decide) (by decide)

/-- Program P1, with the responses taken between the commands. -/
theorem test_witness_EncodeThenDecodeIsIdentity :
    ∃ (s t₁ u₁ t₂ u₂ : State) (v₁ v₂ : Word), Inv s ∧
      exec .build s = .next t₁ ∧ t₁.pending = some { code := 0, data := v₁ } ∧
      u₁.src = t₁.src ∧ u₁.ft = t₁.ft ∧ u₁.code = t₁.code ∧
      exec .encode u₁ = .next t₂ ∧ t₂.pending = some { code := 0, data := v₂ } ∧
      u₂.bits = t₂.bits ∧ u₂.ft = t₂.ft ∧ u₂.code = t₂.code :=
  ⟨withSrc textB1, { builtB1 with pending := some { code := 0, data := 4 } }, builtB1,
    { builtB1 with bits := bitsB1, pending := some { code := 0, data := 19 } }, { builtB1 with bits := bitsB1 }, 4, 19,
    test_inv_textB1, rfl, rfl, rfl, rfl, rfl, rfl, rfl, rfl, rfl, rfl⟩

/-- The table of B1, and SRC "BA". -/
theorem test_witness_EncodeThenDecodeWithOlderTable :
    ∃ (s t u : State) (v : Word), Inv s ∧ exec .encode s = .next t ∧ t.pending = some { code := 0, data := v } ∧
      u.bits = t.bits ∧ u.ft = s.ft ∧ u.code = s.code :=
  ⟨{ builtB1 with src := syms [0x42, 0x41] },
    { builtB1 with src := syms [0x42, 0x41], bits := bitsOf [1, 0, 0], pending := some { code := 0, data := 3 } },
    { builtB1 with bits := bitsOf [1, 0, 0] }, 3,
    inv_buffers test_inv_builtB1 (syms [0x42, 0x41]) [] [] (by decide) (by decide) (by decide), rfl, rfl, rfl, rfl, rfl⟩

/-- P = 0x10000, the highest, and a source with exactly as many draws as BITS has bits. -/
theorem test_witness_NoiseInvertsByItsDraws :
    (0x10000 : Arg).toNat ≤ 0x10000 ∧ (waitingState 4).entropy.offers (waitingState 4).bits.length = true ∧
    (waitingState 4).bits[3]? = some false := by decide

/-- P = 0x10001, the lowest illegal one; and a source with one draw too few. -/
theorem test_witness_NoiseRaisesOrWaits :
    0x10000 < (0x10001 : Arg).toNat ∧ (0x10000 : Arg).toNat ≤ 0x10000 ∧ (waitingState 3).entropy.left = some 3 ∧
    3 < (waitingState 3).bits.length := by decide

theorem test_witness_NoiseAtItsEndPoints :
    (withBits [0, 1]).entropy.offers (withBits [0, 1]).bits.length = true := by decide

theorem test_witness_OnlyNoiseTakesDraws :
    exec .encode builtB1 = .next (after .encode builtB1) ∧ ∀ p, Instr.encode ≠ .noise p := ⟨rfl, nofun⟩

/-- Register numbers 0, 15 and 16. -/
theorem test_witness_ReadRegisterMap :
    16 ≤ (16 : Arg).toNat ∧ (15 : Arg).toNat < 16 ∧ (0 : Arg).toNat < 16 := by decide

theorem test_witness_ReadSymbolBuffers :
    endP1.src.length ≤ (10 : Arg).toNat ∧ endP1.src[(9 : Arg).toNat]? = some (Fin.ofNat 0x110000 0x44) ∧
    endP1.dst.length ≤ (10 : Arg).toNat ∧ endP1.dst[(0 : Arg).toNat]? = some (Fin.ofNat 0x110000 0x41) := by decide

theorem test_witness_ReadBitsPacksMostSignificantFirst :
    endP1.bits.length ≤ 32 * (1 : Arg).toNat ∧ 32 * (0 : Arg).toNat < endP1.bits.length := by decide

theorem test_witness_ReadFrequencyTable :
    endP1.ft.length ≤ (4 : Arg).toNat ∧ endP1.ft[(3 : Arg).toNat]? = some (ent 0x44 1) := by decide

/-- A codeword of 3 bits has the chunk 0 and no chunk 1; entry 4 is none. -/
theorem test_witness_ReadCodewords :
    endP1.code.length = endP1.ft.length ∧ endP1.ft.length ≤ (4 : Arg).toNat ∧
    endP1.code[(2 : Arg).toNat]? = some (bitsOf [1, 1, 1]) ∧ endP1.ft.length ≤ (4 : BitVec 14).toNat ∧
    endP1.code[(2 : BitVec 14).toNat]? = some (bitsOf [1, 1, 1]) ∧
    (bitsOf [1, 1, 1]).length ≤ 32 * (1 : BitVec 8).toNat ∧ 32 * (0 : BitVec 8).toNat < (bitsOf [1, 1, 1]).length := by
  decide

theorem test_witness_ReadEntryOfSymbol :
    (endP1.ft.map Entry.sym).Nodup ∧ endP1.ft[2]? = some (ent 0x43 2) ∧ (ent 0x43 2).sym.val = (0x43 : Arg).toNat ∧
    ∀ e ∈ endP1.ft, e.sym.val ≠ (0x110000 : Arg).toNat := by decide

theorem test_witness_ReadTreeNodes :
    endP1.node.length ≤ (7 : Arg).toNat ∧ endP1.node[(3 : Arg).toNat]? = some (leafN 0x44 1) ∧
    endP1.node[(6 : Arg).toNat]? = some (Node.internal 10 0 5) := by decide

/-- A read that succeeds and one that fails. -/
theorem test_witness_ReadsHaveNoSideEffect :
    isRead (.rdNw 6) = true ∧ exec (.rdNw 6) endP1 = .next (after (.rdNw 6) endP1) ∧
    exec (.rdNw 7) endP1 = .next (after (.rdNw 7) endP1) := ⟨by decide, rfl, rfl⟩

theorem test_witness_RepeatedCommandChangesNothingMore :
    repeatable .build = true ∧ exec .build builtB1 = .next (after .build builtB1) := ⟨by decide, rfl⟩

/-- BUILD of an empty SRC, as a command and through the ports, where an illegal word fails too. -/
theorem test_witness_FailedCommandWritesOnlyErrorRecord :
    Ready State.reset ∧ exec .build State.reset = errWith 1 0 State.reset ∧
    step { State.reset with offered := [0x20000000] } = errWith 1 0 State.reset ∧
    step { State.reset with offered := [0xF8000000] } = errWith 6 0xF8000000 State.reset := ⟨⟨rfl, rfl⟩, rfl, rfl, rfl⟩

theorem test_witness_ResponseCodesOfCommands :
    Ready State.reset ∧ exec (.rdCof 0x41) State.reset = errWith 2 0x41 State.reset := ⟨⟨rfl, rfl⟩, rfl⟩

theorem test_witness_CommandsWriteOnlyTheirRow :
    Ready (withSrc textB1) ∧ exec .build (withSrc textB1) = okWith 4 builtB1 ∧ WellFormed (.pushBits 22 0x3FFFFF) :=
  ⟨⟨rfl, rfl⟩, rfl, by decide⟩

/-- 10_state.md R42: a CLEAR of no group may not empty SRC, and PUSH.SYM may not replace it. -/
theorem test_writes_refuses :
    ¬ Writes (.clear 0) (withSrc [0]) State.reset ∧ ¬ Writes (.pushSym 0) (withSrc [0, 1]) (withSrc [0]) := by
  constructor
  · simp only [Writes]; decide
  · rintro ⟨c, h⟩
    have := congrArg (fun s : State => s.src.length) h
    simp [withSrc, syms] at this

/-- A success after an error, and a CLEAR whose mask has bit 4 alone. -/
theorem test_witness_ErrorRecordIsSticky :
    Ready { State.reset with errcode := 1 } ∧
    exec .nop { State.reset with errcode := 1 } = okWith 0 { State.reset with errcode := 1 } ∧
    exec (.clear 0x10) { State.reset with errcode := 1 } = okWith 0 State.reset ∧ (0x10 : Sel).getLsbD 4 = true :=
  ⟨⟨rfl, rfl⟩, rfl, rfl, by decide⟩

/-- NOISE 6 from two states whose hosts and whose later draws differ: every premise, `exec` among them. -/
theorem test_witness_CommandDependsOnStateAndDrawsAlone :
    ∃ s t s' : State, Ready s ∧ Ready t ∧ SameBlock s t ∧
      s.entropy.offers s.bits.length = t.entropy.offers t.bits.length ∧
      (∀ k, k < s.bits.length → s.entropy.draw k = t.entropy.draw k) ∧ exec (.noise 6) s = .next s' ∧
      s.offered ≠ t.offered ∧ s.entropy.draw 2 ≠ t.entropy.draw 2 :=
  ⟨withDraws [0, 1] [5, 6, 7], { withDraws [0, 1] [5, 6, 8] with offered := [0] },
    after (.noise 6) (withDraws [0, 1] [5, 6, 7]), ⟨rfl, rfl⟩, ⟨rfl, rfl⟩,
    ⟨rfl, rfl, rfl, rfl, rfl, rfl, rfl, rfl, rfl, rfl⟩, rfl, by decide, rfl, by decide, by decide⟩

theorem test_witness_ResetMeetsInvariant : ({ nSym := 2, srcCap := 1, bitCap := 32 } : Params).Legal :=
  ⟨by decide, by decide, by decide⟩

theorem test_witness_StepKeepsInvariant :
    Inv { builtB1 with offered := [0x28000000] } ∧
    step { builtB1 with offered := [0x28000000] } = okWith 19 { builtB1 with bits := bitsB1 } :=
  ⟨inv_frame test_inv_builtB1 rfl rfl rfl rfl rfl rfl rfl rfl (by decide) nofun nofun, rfl⟩

theorem test_witness_StepNeverStops : Inv endP1 := test_inv_endP1

/-- A reachable state beyond the first one: the host's word, accepted. -/
theorem test_witness_ReachableStatesMeetR35 :
    Reachable { withSrc [0] with pending := some { code := 0, data := 1 } } :=
  .step (.start Params.default ⟨[], 0, none⟩ [0x10000000] [] ⟨by decide, by decide, by decide⟩) rfl

theorem test_witness_HardwiredRegistersNeverChange :
    step { builtB1 with offered := [0x20000000] } = okWith 4 builtB1 := rfl

end Sys2Proof.Tests
end

section
/-! The scope (spec 00_scope.md R7): a ready block runs the offered command, whole, in one step; and a command reads the
block and the draws alone. What is outside the block is replaced (`State.amid`), and each command is shown to go the
same way. -/

namespace Sys2Proof.Machine

open Sys2Proof.Claims

/-! ## The offered command -/

theorem acceptWord_of_decode {w : Word} {i : Instr} (h : decode w = .ok i) (s : State) : acceptWord w s = .run i s := by
  rw [acceptWord, h]

theorem step_of_run {s t : State} {i : Instr} (h : turn s = .run i t) : step s = exec i t := by
  rw [step, h]

/-- Settles O5: the turn of a ready block is to accept the offered word, and an accepted command is run. -/
theorem stepRunsOfferedCommand : Obligations.StepRunsOfferedCommand := by
  rintro s w rest i ⟨hp, hw⟩ hr ho hd
  exact step_of_run ((turn_accept hr hp hw ho).trans (acceptWord_of_decode hd _))

/-! ## The block amid another host and another source -/

/-- The block of `s` with the host and the entropy source of `u`, which are outside it (00_scope.md R6). -/
def State.amid (s u : State) : State :=
  { s with entropy := u.entropy, offered := u.offered, inputs := u.inputs }

/-- The outcome with `f` applied to the next state, where there is one. -/
def mapNext (f : State → State) : Host.Outcome State Fault Refusal → Host.Outcome State Fault Refusal
  | .next s => .next (f s)
  | .fault r => .fault r
  | .refused r => .refused r

section
variable (s u : State)

@[simp] theorem amid_src : (s.amid u).src = s.src := rfl
@[simp] theorem amid_bits : (s.amid u).bits = s.bits := rfl
@[simp] theorem amid_ft : (s.amid u).ft = s.ft := rfl
@[simp] theorem amid_code : (s.amid u).code = s.code := rfl
@[simp] theorem amid_params : (s.amid u).params = s.params := rfl
@[simp] theorem amid_entropy : (s.amid u).entropy = u.entropy := rfl

theorem sameBlock_amid : SameBlock s (s.amid u) := ⟨rfl, rfl, rfl, rfl, rfl, rfl, rfl, rfl, rfl, rfl⟩

/-- Two ready states with the same block differ in the host and the source alone. -/
theorem eq_amid_of_sameBlock {s t : State} (hs : Ready s) (ht : Ready t) (h : SameBlock s t) : t = s.amid t := by
  obtain ⟨hsp, hsw⟩ := hs
  obtain ⟨htp, htw⟩ := ht
  obtain ⟨hsrc, hbits, hdst, hft, hnode, hcode, htail, herrcode, herrinfo, hparams⟩ := h
  rw [State.amid, hsrc, hbits, hdst, hft, hnode, hcode, htail, herrcode, herrinfo, hparams, hsp, hsw, ← htp, ← htw]

theorem answer_amid (v : Option Word) (e : Error) (info : Word) :
    answer v e info (s.amid u) = mapNext (·.amid u) (answer v e info s) := by
  cases v <;> rfl

/-! What each command but NOISE tests and writes is the block's: on every branch both sides are the same by `rfl`. -/

theorem applyIf_amid {f : State → State} (hf : ∀ t : State, f (t.amid u) = (f t).amid u) (b : Bool) :
    applyIf b f (s.amid u) = (applyIf b f s).amid u := by
  cases b with
  | false => rfl
  | true => exact hf s

theorem clearGroups_amid (mask : Sel) : clearGroups mask (s.amid u) = (clearGroups mask s).amid u := by
  simp only [clearGroups]
  rw [applyIf_amid _ _ fun _ => rfl, applyIf_amid _ _ fun _ => rfl, applyIf_amid _ _ fun _ => rfl,
    applyIf_amid _ _ fun _ => rfl, applyIf_amid _ _ fun _ => rfl]

/-- A test of the block comes out alike on both sides, so the two branches are compared. -/
theorem ite_eq_mapNext {c d : Prop} [Decidable c] [Decidable d] {f : State → State}
    {x y x' y' : Host.Outcome State Fault Refusal} (hcd : c ↔ d) (hx : x = mapNext f x') (hy : y = mapNext f y') :
    (if c then x else y) = mapNext f (if d then x' else y') := by
  rw [apply_ite (mapNext f), hx, hy]
  exact if_congr hcd rfl rfl

theorem execPushSym_amid (sym : Arg) : execPushSym sym (s.amid u) = mapNext (·.amid u) (execPushSym sym s) := by
  rw [execPushSym, execPushSym]
  split
  · rfl
  · exact ite_eq_mapNext .rfl rfl rfl

theorem execPushBits_amid (n : Nat) (value : Arg) :
    execPushBits n value (s.amid u) = mapNext (·.amid u) (execPushBits n value s) :=
  ite_eq_mapNext .rfl rfl rfl

theorem execBuild_amid : execBuild (s.amid u) = mapNext (·.amid u) (execBuild s) := by
  refine ite_eq_mapNext .rfl rfl ?_
  simp only [amid_src, amid_params]
  split <;> rfl

theorem execEncode_amid : execEncode (s.amid u) = mapNext (·.amid u) (execEncode s) := by
  simp only [execEncode, amid_src, amid_ft, amid_code, amid_params]
  split
  · rfl
  · split <;> rfl

theorem execRdBits_amid (j : Arg) : execRdBits j (s.amid u) = mapNext (·.amid u) (execRdBits j s) :=
  ite_eq_mapNext .rfl rfl rfl

theorem execRdClen_amid (k : Arg) : execRdClen k (s.amid u) = mapNext (·.amid u) (execRdClen k s) := by
  refine ite_eq_mapNext .rfl rfl ?_
  rw [amid_code]
  split <;> rfl

theorem execRdCbits_amid (k : BitVec 14) (j : BitVec 8) :
    execRdCbits k j (s.amid u) = mapNext (·.amid u) (execRdCbits k j s) := by
  refine ite_eq_mapNext .rfl rfl ?_
  rw [amid_code]
  split
  · exact ite_eq_mapNext .rfl rfl rfl
  · rfl

/-- Every command but NOISE goes the same way, whatever is outside the block. -/
theorem exec_amid (i : Instr) (hi : ∀ p, i ≠ .noise p) : exec i (s.amid u) = mapNext (·.amid u) (exec i s) := by
  cases i with
  | nop => rfl
  | clear mask => exact congrArg (done 0) (clearGroups_amid s u mask)
  | pushSym sym => exact execPushSym_amid s u sym
  | pushBits n value => exact execPushBits_amid s u n value
  | build => exact execBuild_amid s u
  | encode => exact execEncode_amid s u
  | noise p => exact absurd rfl (hi p)
  | decode => rfl
  | rdReg r => exact answer_amid s u _ _ _
  | rdSrc k => exact answer_amid s u _ _ _
  | rdBits j => exact execRdBits_amid s u j
  | rdDst k => exact answer_amid s u _ _ _
  | rdFsym k => exact answer_amid s u _ _ _
  | rdFcnt k => exact answer_amid s u _ _ _
  | rdClen k => exact execRdClen_amid s u k
  | rdCbits k j => exact execRdCbits_amid s u k j
  | rdCof sym => exact answer_amid s u _ _ _
  | rdNkind x => exact answer_amid s u _ _ _
  | rdNw x => exact answer_amid s u _ _ _
  | rdNl x => exact answer_amid s u _ _ _
  | rdNr x => exact answer_amid s u _ _ _

end

/-! NOISE reads what the source offers, and the draws it takes. -/

theorem Entropy.next_congr {e f : Entropy} {n : Nat} (h : ∀ k, k < n → e.draw k = f.draw k) : e.next n = f.next n :=
  List.map_congr_left fun k hk => h k (List.mem_range.1 hk)

/-- NOISE goes the same way amid a source that offers alike and has the same first draws. -/
theorem execNoise_amid {s s' u : State} {p : Arg}
    (ho : s.entropy.offers s.bits.length = u.entropy.offers s.bits.length)
    (hd : ∀ k, k < s.bits.length → s.entropy.draw k = u.entropy.draw k) (he : execNoise p s = .next s') :
    ∃ u' : State, execNoise p (s.amid u) = .next (s'.amid u') := by
  simp only [execNoise, amid_bits, amid_entropy, ← ho, ← Entropy.next_congr hd] at he ⊢
  split_ifs at he ⊢ <;> cases he
  · exact ⟨u, rfl⟩
  · exact ⟨{ u with entropy := u.entropy.advance s.bits.length }, rfl⟩
  · exact ⟨u, rfl⟩

/-- Every command that answers a next state answers the same block amid another host and a source like its own. -/
theorem exec_next_amid {i : Instr} {s s' u : State}
    (ho : s.entropy.offers s.bits.length = u.entropy.offers s.bits.length)
    (hd : ∀ k, k < s.bits.length → s.entropy.draw k = u.entropy.draw k) (he : exec i s = .next s') :
    ∃ u' : State, exec i (s.amid u) = .next (s'.amid u') := by
  by_cases hi : ∃ p, i = .noise p
  · obtain ⟨p, rfl⟩ := hi
    exact execNoise_amid ho hd he
  · exact ⟨u, by rw [exec_amid s u i (not_exists.1 hi), he]; rfl⟩

/-- Settles O52: the second state is the first one's block amid its own host and source, so the command goes the same
way, and what it answers has the block of the first answer. -/
theorem commandDependsOnStateAndDrawsAlone : Obligations.CommandDependsOnStateAndDrawsAlone := by
  intro i s t s' hs ht hst ho hd he
  have hamid : t = s.amid t := eq_amid_of_sameBlock hs ht hst
  have hbits : t.bits = s.bits := by rw [hamid, amid_bits]
  obtain ⟨u', ht'⟩ := exec_next_amid (hbits ▸ ho) hd he
  exact ⟨s'.amid u', hamid ▸ ht', sameBlock_amid s' u', rfl, rfl⟩

end Sys2Proof.Machine
end

section
/-! The step of the block (spec 10_state.md R32 to R37, R41, R42): which turn a step took, what a blocked step does, the
registers, the state after reset, and what a command leaves unchanged. -/

namespace Sys2Proof.Machine

open Sys2Proof.Claims

/-! ## What a step can do -/

/-- The ways a step answers a next state. -/
inductive Stepped (s : State) : State → Prop where
  /-- An event of the host or the entropy source. -/
  | event : Stepped s (takeInput s)
  /-- A NOISE that waited has gone on. -/
  | goesOn {t : State} (p : Arg) (hw : s.waiting = some p) (he : exec (.noise p) { s with waiting := none } = .next t) :
      Stepped s t
  /-- An offered command has run. -/
  | runs {t : State} (i : Instr) (rest : List Word) (hr : Ready s) (he : exec i { s with offered := rest } = .next t) :
      Stepped s t
  /-- An illegal word was offered. -/
  | illegal (w : Word) (rest : List Word) (hr : Ready s) :
      Stepped s (raise .illegalCommand w { s with offered := rest })

/-- The block accepts a word only when it is ready (30_encoding.md R81). -/
theorem ready_of_cmdReady {s : State} (h : s.cmdReady = true) : Ready s := by
  simp only [State.cmdReady, Bool.and_eq_true, Option.isNone_iff_eq_none] at h
  obtain ⟨⟨-, hp⟩, hw⟩ := h
  exact ⟨hp, hw⟩

/-- The three turns there are. -/
theorem turn_cases (s : State) :
    turn s = .stay (takeInput s) ∨
    (∃ p, s.waiting = some p ∧ turn s = .run (.noise p) { s with waiting := none }) ∨
    (∃ w rest, Ready s ∧ turn s = acceptWord w { s with offered := rest }) := by
  unfold turn
  split
  · exact .inl rfl
  · split
    · rename_i p hw
      split
      · exact .inr (.inl ⟨p, hw, rfl⟩)
      · exact .inl rfl
    · split
      · rename_i w rest _
        split
        · rename_i hc
          exact .inr (.inr ⟨w, rest, ready_of_cmdReady hc, rfl⟩)
        · exact .inl rfl
      · exact .inl rfl

theorem step_of_stay {s t : State} (h : turn s = .stay t) : step s = .next t := by
  rw [step, h]

/-- A step that answers a next state has gone one of the four ways. -/
theorem stepped_of_step {s t : State} (h : step s = .next t) : Stepped s t := by
  rcases turn_cases s with ht | ⟨p, hw, ht⟩ | ⟨w, rest, hr, ht⟩
  · rw [step_of_stay ht] at h
    cases h
    exact .event
  · exact .goesOn p hw (step_of_run ht ▸ h)
  · rw [acceptWord] at ht
    split at ht
    · exact .runs _ rest hr (step_of_run ht ▸ h)
    · rw [step_of_stay ht] at h
      cases h
      exact .illegal w rest hr

/-! ## A blocked step -/

theorem turn_of_blocked {s : State} (h : Blocked s) : turn s = .stay (takeInput s) := by
  rcases h with ⟨hw, ho⟩ | ⟨hw, hp | ho⟩
  · obtain ⟨p, hp⟩ := Option.ne_none_iff_exists'.1 hw
    exact turn_waiting hp ho
  · exact turn_pending hw hp
  · exact turn_idle hw ho

/-- Settles O8: the turn of a blocked state is the next event, and each event does what `takeInput` says of it. -/
theorem blockedStepRunsNoCommand : Obligations.BlockedStepRunsNoCommand := by
  intro s hb
  have hstep : step s = .next (takeInput s) := step_of_stay (turn_of_blocked hb)
  rw [hstep]
  refine ⟨fun h => ?_, fun w rest h => ?_, fun rest h => ?_, fun k rest h => ?_, fun rest h => ?_⟩ <;>
    simp only [takeInput, h, Entropy.supply]

/-! ## The hardwired registers -/

theorem exec_params (i : Instr) (s : State) {t : State} (h : exec i s = .next t) : t.params = s.params := by
  rcases exec_next h with ⟨v, u, rfl, hw⟩ | ⟨e, info, -, rfl⟩ | ⟨p, -, -, rfl⟩
  · exact hw.frame.2.1
  · rfl
  · rfl

theorem step_params {s t : State} (h : step s = .next t) : t.params = s.params := by
  cases stepped_of_step h with
  | event => exact takeInput_params s
  | goesOn p hw he => exact exec_params _ { s with waiting := none } he
  | runs i rest hr he => exact exec_params i { s with offered := rest } he
  | illegal w rest hr => rfl

/-- Settles O57: no step changes the parameters, and the four registers read nothing else. -/
theorem hardwiredRegistersNeverChange : Obligations.HardwiredRegistersNeverChange := by
  intro s t h
  have hp := step_params h
  refine ⟨hp, ?_⟩
  rintro r (rfl | rfl | rfl | rfl) <;> simp only [regValue, hp]

/-! ## STATUS and the values after reset -/

/-- A bit of a word is the bit of the natural in it. -/
theorem natWord_getLsbD (n i : Nat) : (natWord n).getLsbD i = (decide (i < 32) && n.testBit i) :=
  BitVec.getLsbD_ofNat 32 n i

/-- Two flags stand in bits 0 and 1 of their word. -/
theorem natWord_flags_getLsbD (a b : Bool) :
    (natWord (2 * a.toNat + b.toNat)).getLsbD 0 = b ∧ (natWord (2 * a.toNat + b.toNat)).getLsbD 1 = a := by
  cases a <;> cases b <;> decide

/-- Settles O39: STATUS is a word of two flags, below 4. -/
theorem statusHasTwoFlags : Obligations.StatusHasTwoFlags := by
  intro s
  obtain ⟨hbuilt, herr⟩ := natWord_flags_getLsbD s.err s.built
  refine ⟨?_, ?_, fun i hi => ?_⟩
  · rw [State.status, hbuilt, State.built, State.ndist, decide_eq_true_iff]
  · rw [State.status, herr, State.err, bne_iff_ne]
  · have hlt : 2 * s.err.toNat + s.built.toNat < 2 ^ 2 := by
      have := s.err.toNat_le
      have := s.built.toNat_le
      omega
    rw [State.status, natWord_getLsbD,
      Nat.testBit_eq_false_of_lt (hlt.trans_le (Nat.pow_le_pow_right (by decide) hi)), Bool.and_false]

theorem reset_components : ResetComponents State.reset := ⟨rfl, rfl, rfl, rfl, rfl, rfl, rfl, rfl, rfl, rfl⟩

/-- Settles O10: each register is a view of a component with its reset value. -/
theorem resetValues : Obligations.ResetValues := by
  refine ⟨reset_components, rfl, rfl, fun r h₁ h₂ => ?_, rfl, rfl, rfl⟩
  interval_cases r <;> rfl

/-! ## What a command leaves unchanged -/

/-- Settles O50: what succeeds has written its row before it answers, and what fails is error entry. -/
theorem commandsWriteOnlyTheirRow : Obligations.CommandsWriteOnlyTheirRow := by
  rintro i s t ⟨hp, -⟩ he
  rcases exec_next he with ⟨v, u, rfl, hw⟩ | ⟨e, info, -, rfl⟩ | ⟨p, hi, -, ht⟩
  · have hu : { respond v u with pending := none } = u := by rw [← hp, ← hw.frame.1]; rfl
    exact .inl ⟨_, rfl, .inl ⟨rfl, hu ▸ hw⟩⟩
  · exact .inl ⟨_, rfl, .inr ⟨e.code_ne_zero, rfl⟩⟩
  · exact .inr ⟨p, hi, ht⟩

/-- A command that answers code 0 from a ready state has succeeded. -/
theorem writes_of_response_ok {i : Instr} {s t : State} {v : Word} (hs : Ready s) (he : exec i s = .next t)
    (hr : t.pending = some { code := 0, data := v }) : ∃ u, t = respond v u ∧ Writes i s u := by
  rcases exec_next he with ⟨v', u, rfl, hw⟩ | ⟨e, info, -, rfl⟩ | ⟨p, -, -, rfl⟩
  · cases hr
    exact ⟨u, rfl, hw⟩
  · simp only [raise_pending, Option.some.injEq, Response.mk.injEq] at hr
    exact absurd hr.1 e.code_ne_zero
  · rw [hs.1] at hr
    cases hr

/-- The error record after CLEAR (40_control.md R101). -/
theorem execClear_error {mask : Sel} {s t : State} (he : exec (.clear mask) s = .next t) :
    t.errcode = (if mask.getLsbD 4 then 0 else s.errcode) ∧ t.errinfo = (if mask.getLsbD 4 then 0 else s.errinfo) := by
  cases he
  exact ⟨clearGroups_errcode s mask, clearGroups_errinfo s mask⟩

/-- Settles O51: no row but CLEAR's has the error record, and CLEAR empties that group when bit 4 selects it. -/
theorem errorRecordIsSticky : Obligations.ErrorRecordIsSticky := by
  intro i s t v hs he hr
  refine ⟨fun hmask => ?_, fun mask hi hbit => ?_⟩
  · by_cases hi : ∃ mask, i = .clear mask
    · obtain ⟨mask, rfl⟩ := hi
      simpa only [hmask mask rfl, Bool.false_eq_true, if_false] using execClear_error he
    · obtain ⟨u, rfl, hw⟩ := writes_of_response_ok hs he hr
      exact hw.error_eq (not_exists.1 hi)
  · subst hi
    simpa only [hbit, if_true] using execClear_error he

end Sys2Proof.Machine
end

section
/-! The invariant (spec 10_state.md R35, R36): it holds after reset, each command keeps it, and so does each step, so every
reachable state meets R35. -/

namespace Sys2Proof.Machine

open Sys2Proof.Claims

/-! ## After reset -/

theorem params_default_legal : Params.default.Legal := ⟨by decide, by decide, by decide⟩

/-- The reset values meet the invariant, whatever the parameters and what is outside the block are. -/
theorem inv_of_resetComponents {s : State} (hp : s.params.Legal) (hc : ResetComponents s) (hw : s.waiting = none) :
    Inv s := by
  obtain ⟨hsrc, hbits, hdst, hft, hnode, hcode, htail, herrcode, -, hpending⟩ := hc
  exact {
    params_legal := hp
    src_le := by simp [hsrc]
    bits_le := by simp [hbits]
    dst_le := by simp [hdst]
    tail_le := by simp [htail]
    table := .inl ⟨hft, hnode, hcode⟩
    errcode_le := by simp [herrcode]
    response_le := by simp [hpending]
    waiting_ok := by simp [hw] }

theorem inv_startState {p : Params} (h : p.Legal) (e : Entropy) (offered : List Word) (inputs : List Input) :
    Inv (startState p e offered inputs) :=
  inv_of_resetComponents h reset_components rfl

/-- Settles O53: both states have the reset values, with legal parameters. -/
theorem resetMeetsInvariant : Obligations.ResetMeetsInvariant :=
  ⟨inv_of_resetComponents params_default_legal reset_components rfl, fun _ e offered inputs h =>
    inv_startState h e offered inputs⟩

theorem inv_resetBlock {s : State} (h : Inv s) : Inv (resetBlock s) :=
  inv_of_resetComponents h.params_legal reset_components rfl

/-! ## One lemma per group of components that are written together -/

section
variable {s : State} (h : Inv s)
include h

/-- The host and the entropy source are outside the block. -/
theorem inv_outside (e : Entropy) (offered : List Word) (inputs : List Input) :
    Inv { s with entropy := e, offered := offered, inputs := inputs } :=
  inv_frame h rfl rfl rfl rfl rfl rfl rfl rfl h.errcode_le h.response_le h.waiting_ok

theorem inv_src {c : List Symbol} (hc : c.length ≤ s.params.srcCap) : Inv { s with src := c } :=
  { h with src_le := hc, table := table_frame h.table rfl rfl rfl rfl }

theorem inv_bits {b : Bits} (hb : b.length ≤ s.params.bitCap) : Inv { s with bits := b } :=
  { h with bits_le := hb, table := table_frame h.table rfl rfl rfl rfl }

theorem inv_dst_tail {d : List Symbol} {n : Nat} (hd : d.length ≤ s.params.dstCap) (hn : n ≤ s.params.bitCap) :
    Inv { s with dst := d, tail := n } :=
  { h with dst_le := hd, tail_le := hn, table := table_frame h.table rfl rfl rfl rfl }

theorem inv_with_table {ft : List Entry} {node : List Node} {code : List Bits}
    (ht : TableEmpty { s with ft := ft, node := node, code := code } ∨
      TableBuilt { s with ft := ft, node := node, code := code }) :
    Inv { s with ft := ft, node := node, code := code } :=
  { h with table := ht }

theorem inv_not_waiting : Inv { s with waiting := none } :=
  inv_frame h rfl rfl rfl rfl rfl rfl rfl rfl h.errcode_le h.response_le nofun

theorem inv_waits {p : Arg} (hp : p.toNat ≤ maxProbability) (hr : s.pending = none) : Inv { s with waiting := some p } :=
  inv_frame h rfl rfl rfl rfl rfl rfl rfl rfl h.errcode_le h.response_le fun _ hq => by
    cases hq
    exact ⟨hp, hr⟩

/-! ## Events -/

theorem inv_response_taken : Inv { s with pending := none } :=
  inv_frame h rfl rfl rfl rfl rfl rfl rfl rfl h.errcode_le nofun fun p hp => ⟨(h.waiting_ok p hp).1, rfl⟩

theorem inv_takeInput : Inv (takeInput s) := by
  unfold takeInput
  split
  next => exact h
  next w rest _ => exact inv_outside h s.entropy (s.offered ++ [w]) rest
  next rest _ => exact inv_outside (inv_response_taken h) s.entropy s.offered rest
  next rest _ => exact inv_resetBlock (inv_outside h s.entropy s.offered rest)
  next k rest _ => exact inv_outside h (s.entropy.supply k) s.offered rest
  next rest _ => exact inv_outside h s.entropy s.offered rest

/-! ## CLEAR -/

theorem inv_clearError : Inv (clearError s) :=
  inv_frame h rfl rfl rfl rfl rfl rfl rfl rfl (Nat.zero_le _) h.response_le h.waiting_ok

end

theorem inv_applyIf {f : State → State} (hf : ∀ s, Inv s → Inv (f s)) (b : Bool) {s : State} (h : Inv s) :
    Inv (applyIf b f s) := by
  cases b with
  | false => exact h
  | true => exact hf s h

theorem inv_clearGroups (mask : Sel) {s : State} (h : Inv s) : Inv (clearGroups mask s) :=
  inv_applyIf (fun _ => inv_clearError) _ <|
    inv_applyIf (fun _ hs => inv_with_table hs (.inl ⟨rfl, rfl, rfl⟩)) _ <|
      inv_applyIf (fun _ hs => inv_dst_tail hs (Nat.zero_le _) (Nat.zero_le _)) _ <|
        inv_applyIf (fun _ hs => inv_bits hs (Nat.zero_le _)) _ <|
          inv_applyIf (fun _ hs => inv_src hs (Nat.zero_le _)) _ h

/-! ## The commands -/

/-- A table that BUILD writes is as the invariant wants it (42_build.md R120, R121). -/
theorem tableBuilt_of_freqTable {s : State} {ft : List Entry} (h : Inv s) (hs : s.src ≠ [])
    (hf : freqTable s.params.nSym s.src = .ok ft) :
    TableBuilt { s with ft := ft, node := tree ft, code := codes ft (tree ft) (rootOf (tree ft)) } := by
  have hc := freqTable_counts hf
  obtain ⟨c, hcs⟩ := List.exists_mem_of_ne_nil _ hs
  exact {
    ndist_pos := by
      have := List.length_pos_of_mem ((hc.mem c).2 hcs)
      rwa [List.length_map] at this
    ndist_le := hc.le
    symbols_distinct := hc.nodup
    counts_pos := fun e he => by
      rw [hc.count e he]
      exact List.count_pos_iff.2 ((hc.mem e.sym).1 (List.mem_map_of_mem he))
    total_le := hc.total.trans_le h.src_le
    node_eq := rfl
    code_eq := rfl }

section
variable {s t : State} (h : Inv s) (hs : Ready s)
include h hs

/-- What a command must show for itself is that its success keeps the invariant. -/
theorem inv_exec_of_writes {i : Instr} (he : exec i s = .next t) (hw : ∀ u, Writes i s u → Inv u) : Inv t := by
  rcases exec_next he with ⟨v, u, rfl, hu⟩ | ⟨e, info, -, rfl⟩ | ⟨p, -, hp, rfl⟩
  · exact inv_respond (hw u hu) (hu.frame.2.2.1.trans hs.2) v
  · exact inv_raise h hs.2 e info
  · exact inv_waits h hp hs.1

/-- NOP and the reads write nothing. -/
theorem inv_exec_of_writes_nothing {i : Instr} (he : exec i s = .next t) (hw : ∀ u, Writes i s u → u = s) : Inv t :=
  inv_exec_of_writes h hs he fun u hu => (hw u hu).symm ▸ h

theorem inv_execPushSym {sym : Arg} (he : execPushSym sym s = .next t) : Inv t := by
  unfold execPushSym at he
  split at he
  · cases he
    exact inv_raise h hs.2 _ _
  · rename_i c _
    split at he <;> cases he
    · exact inv_raise h hs.2 _ _
    · rename_i hne
      refine inv_respond (inv_src h (c := s.src ++ [c]) ?_) hs.2 _
      have := h.src_le
      rw [List.length_append, List.length_singleton]
      omega

theorem inv_execPushBits {n : Nat} {value : Arg} (he : execPushBits n value s = .next t) : Inv t := by
  unfold execPushBits at he
  split at he <;> cases he
  · exact inv_raise h hs.2 _ _
  · rename_i hfits
    refine inv_respond (inv_bits h (b := s.bits ++ pushedBits n value) ?_) hs.2 _
    rw [List.length_append, pushedBits_length]
    omega

theorem inv_execBuild (he : execBuild s = .next t) : Inv t := by
  unfold execBuild at he
  split at he
  · cases he
    exact inv_raise h hs.2 _ _
  · rename_i hne
    split at he <;> cases he
    · exact inv_raise h hs.2 _ _
    · rename_i ft hf
      exact inv_respond (inv_with_table h (.inr (tableBuilt_of_freqTable h hne hf))) hs.2 _

theorem inv_execEncode (he : execEncode s = .next t) : Inv t := by
  unfold execEncode at he
  split at he
  · cases he
    exact inv_raise h hs.2 _ _
  · rcases encodeLoop_cases s.params.bitCap (codewordOf s.ft s.code) [] 0 s.src with
      ⟨ws, -, hl, hle⟩ | ⟨j, hl⟩ | ⟨-, hl⟩ <;> rw [hl] at he <;> cases he
    · refine inv_respond (inv_bits h (b := [] ++ ws.flatten) ?_) hs.2 _
      simpa using hle (Nat.zero_le _)
    · exact inv_raise h hs.2 _ _

theorem inv_execDecode (he : execDecode s = .next t) : Inv t := by
  have hle := decodeLoop_length_le (rev s.ft s.code) [] [] s.bits
  have hb := h.bits_le
  rw [← decodeBits, List.length_nil, List.length_nil] at hle
  have hd : (decodeBits s.ft s.code s.bits).1.length ≤ s.params.dstCap := by rw [Params.dstCap]; omega
  have ht : (decodeBits s.ft s.code s.bits).2.length ≤ s.params.bitCap := by omega
  cases he
  exact inv_respond (inv_dst_tail h hd ht) hs.2 _

/-- NOISE leaves the length of BITS (44_noise.md R170). -/
theorem inv_execNoise {p : Arg} (he : exec (.noise p) s = .next t) : Inv t := by
  refine inv_exec_of_writes h hs he fun u hu => ?_
  obtain ⟨hu, hlen⟩ := hu
  rw [hu]
  exact inv_outside (inv_bits h (hlen.trans_le h.bits_le)) u.entropy s.offered s.inputs

/-- Every command keeps the invariant. -/
theorem inv_exec {i : Instr} (he : exec i s = .next t) : Inv t := by
  cases i with
  | clear mask => cases he; exact inv_respond (inv_clearGroups mask h) ((clearGroups_waiting s mask).trans hs.2) 0
  | pushSym sym => exact inv_execPushSym h hs he
  | pushBits n value => exact inv_execPushBits h hs he
  | build => exact inv_execBuild h hs he
  | encode => exact inv_execEncode h hs he
  | noise p => exact inv_execNoise h hs he
  | decode => exact inv_execDecode h hs he
  | nop | rdReg | rdSrc | rdBits | rdDst | rdFsym | rdFcnt | rdClen | rdCbits | rdCof | rdNkind | rdNw | rdNl | rdNr =>
    exact inv_exec_of_writes_nothing h hs he fun _ hu => hu

end

/-! ## Every step and every reachable state -/

/-- Settles O54: an event, a command from a ready state, and error entry each keep the invariant; a NOISE that goes on
runs from a ready state, since none waits beside a response. -/
theorem stepKeepsInvariant : Obligations.StepKeepsInvariant := by
  intro s t h hst
  cases stepped_of_step hst with
  | event => exact inv_takeInput h
  | goesOn p hw he => exact inv_exec (inv_not_waiting h) ⟨(h.waiting_ok p hw).2, rfl⟩ he
  | runs i rest hr he => exact inv_exec (inv_outside h s.entropy rest s.inputs) hr he
  | illegal w rest hr => exact inv_raise (inv_outside h s.entropy rest s.inputs) hr.2 _ w

theorem inv_of_reachable {s : State} (h : Reachable s) : Inv s := by
  induction h with
  | start p e offered inputs hp => exact inv_startState hp e offered inputs
  | step _ hst ih => exact stepKeepsInvariant _ _ ih hst

/-- R35 of a state with no table. -/
theorem ruleR35_of_tableEmpty {s : State} (h : Inv s) (ht : TableEmpty s) : RuleR35 s where
  bounds := ⟨h.src_le, h.bits_le, h.dst_le, h.tail_le⟩
  sizes := .inl ⟨ht.ft_empty, ht.node_empty, ht.code_empty⟩
  computed hne := absurd ht.ft_empty hne
  weights := by simp [ht.ft_empty, ht.node_empty]

/-- R35 of a state with a table: its sizes and weights are those of the tree. -/
theorem ruleR35_of_tableBuilt {s : State} (h : Inv s) (ht : TableBuilt s) : RuleR35 s where
  bounds := ⟨h.src_le, h.bits_le, h.dst_le, h.tail_le⟩
  sizes := by
    refine .inr ⟨ht.ndist_pos, ht.ndist_le, ?_, ?_⟩
    · rw [ht.node_eq, tree_length ht.ndist_pos]
    · rw [ht.code_eq, codes_length]
  computed _ := ⟨ht.node_eq, ht.code_eq⟩
  weights := by
    refine ⟨fun e he => ⟨ht.counts_pos e he, (totalCount_mem he).trans ht.total_le⟩, fun n hn => ?_⟩
    obtain ⟨hpos, hle⟩ := node_weight_bounds ht.ndist_pos ht.counts_pos n (ht.node_eq ▸ hn)
    exact ⟨hpos, hle.trans ht.total_le⟩

/-- Settles O56: every reachable state meets the invariant, and the invariant gives R35, with a table and without. -/
theorem reachableStatesMeetR35 : Obligations.ReachableStatesMeetR35 := by
  intro s hr
  have h := inv_of_reachable hr
  exact h.table.elim (ruleR35_of_tableEmpty h) (ruleR35_of_tableBuilt h)

/-! ## The tree and the code -/

/-- The weight in the key of a node is the node's weight. -/
theorem keyOf_fst {node : List Node} {x : Nat} {n : Node} (h : node[x]? = some n) : (keyOf node x).1 = n.weight := by
  simp [keyOf, h]

/-- An internal node of the tree, with its two children. -/
theorem tree_internal_node {ft : List Entry} (h : 1 ≤ ft.length) {x : Nat} (hge : ft.length ≤ x)
    (hx : x < (tree ft).length) :
    ∃ w l r nl nr, (tree ft)[x]? = some (Node.internal w l r) ∧ l < x ∧ r < x ∧ l ≠ r ∧
      (tree ft)[l]? = some nl ∧ (tree ft)[r]? = some nr ∧ w = nl.weight + nr.weight := by
  obtain ⟨_, ha⟩ := tree_arena h
  obtain ⟨w, l, r, hn⟩ := ha.inner x hge hx
  obtain ⟨hl, hr, -, -⟩ := child_data h hn
  obtain ⟨hlr, hw⟩ := ha.sums x w l r hn
  have hnl := List.getElem?_eq_getElem (hl.trans hx)
  have hnr := List.getElem?_eq_getElem (hr.trans hx)
  rw [keyOf_fst hnl, keyOf_fst hnr] at hw
  exact ⟨w, l, r, _, _, hn, hl, hr, hlr, hnl, hnr, hw⟩

/-- The root was made last, and a parent is made after its children. -/
theorem tree_root_no_parent {ft : List Entry} (h : 1 ≤ ft.length) (x : Nat) :
    ¬ IsChild (tree ft) (rootOf (tree ft)) x := by
  intro hc
  have hlt := tree_child_lt h _ _ hc
  have hx := isChild_lt_length hc
  rw [rootOf] at hlt
  omega

/-- Settles O20, from the invariant of the merge loop at its end (`tree_arena`). -/
theorem treeIsStrictlyBinary : Obligations.TreeIsStrictlyBinary := by
  intro ft h
  refine ⟨tree_length h, fun k e he => (tree_leaf_iff h).2 he, fun x => tree_internal_node h, fun y hy => ?_,
    tree_root_no_parent h⟩
  obtain ⟨x, hx⟩ := tree_parent h hy
  exact ⟨x, hx, fun x' hx' => tree_one_parent h y x' x hx' hx⟩

/-- Settles O23: no codeword of a good state begins another, so a codeword has one entry, which `Rev` finds. -/
theorem codewordsArePrefixFree : Obligations.CodewordsArePrefixFree := by
  intro s h
  have hpf := inv_prefixFree h
  exact ⟨hpf, fun k e c he hc => rev_codeword he hc fun j hj => prefixFree_inj hpf hj hc⟩

end Sys2Proof.Machine
end

section
/-! The memory (spec 20_memory.md R67, R69): only NOISE takes a draw, a read writes at most its response and the error
record, and a read, BUILD, ENCODE or DECODE repeated at once finds what it read as it was. -/

namespace Sys2Proof.Machine

open Sys2Proof.Claims

variable {s t : State}

/-! ## The entropy source -/

/-- Settles O37: no row but NOISE's has the source, and error entry leaves it. -/
theorem onlyNoiseTakesDraws : Obligations.OnlyNoiseTakesDraws := by
  intro i s t he hi
  rcases exec_next he with ⟨v, u, rfl, hw⟩ | ⟨e, info, -, rfl⟩ | ⟨p, hp, -, -⟩
  · exact hw.entropy_eq hi
  · rfl
  · exact absurd hp (hi p)

/-! ## What a read writes -/

/-- The row of a read is empty (10_state.md R42). -/
theorem Writes.eq_of_isRead {i : Instr} (h : Writes i s t) (hi : isRead i = true) : t = s := by
  cases i with
  | rdReg | rdSrc | rdBits | rdDst | rdFsym | rdFcnt | rdClen | rdCbits | rdCof | rdNkind | rdNw | rdNl | rdNr =>
    exact h
  | nop | clear | pushSym | pushBits | build | encode | noise | decode => cases hi

/-- Settles O46: a read that succeeds has written nothing but its response, and one that fails is error entry. -/
theorem readsHaveNoSideEffect : Obligations.ReadsHaveNoSideEffect := by
  intro i s t hi he
  rcases exec_next he with ⟨v, u, rfl, hw⟩ | ⟨e, info, -, rfl⟩ | ⟨p, rfl, -, -⟩
  · rw [hw.eq_of_isRead hi]
    exact .inl ⟨v, rfl⟩
  · exact .inr ⟨e.code, info, e.code_ne_zero, rfl⟩
  · cases hi

/-- What a read leaves for the next command: all but the error record and the response. -/
theorem read_frame {i : Instr} (hi : isRead i = true) (he : exec i s = .next t) :
    ∃ c info r, t = { s with errcode := c, errinfo := info, pending := r } := by
  rcases readsHaveNoSideEffect i s t hi he with ⟨v, rfl⟩ | ⟨c, info, -, rfl⟩
  · exact ⟨s.errcode, s.errinfo, _, rfl⟩
  · exact ⟨c, info, _, rfl⟩

/-! ## Repeating a command

On each branch what the command tests is as it was, so it takes the same branch, and writes there what it has already
written. -/

/-- A read that finds the same value at its index, or none again, answers the same. -/
theorem answer_repeated {v : Option Word} {e : Error} {info : Word} (h : answer v e info s = .next t) :
    answer v e info t = .next t := by
  cases v <;> cases h <;> rfl

/-- The register map has a value for the numbers 0 to 15 and no other (10_state.md R33). -/
theorem regValue_eq_none_iff (s : State) (n : Nat) : regValue s n = none ↔ 16 ≤ n := by
  rcases Nat.lt_or_ge n 16 with hn | hn
  · interval_cases n <;> simp [regValue]
  · obtain ⟨m, rfl⟩ := Nat.exists_eq_add_of_le' hn
    exact iff_of_true rfl hn

/-- RD.REG reads the error record too, but where it writes the record its number is that of no register. -/
theorem execRdReg_repeated {r : Arg} (h : execRdReg r s = .next t) : execRdReg r t = .next t := by
  rcases answer_cases (regValue s r.toNat) .badIndex (argWord r) s with ⟨w, -, ha⟩ | ⟨hv, ha⟩ <;>
    cases ha.symm.trans h
  · exact answer_repeated h
  · rw [execRdReg, (regValue_eq_none_iff _ _).2 ((regValue_eq_none_iff _ _).1 hv)]
    rfl

theorem execRdBits_repeated {j : Arg} (h : execRdBits j s = .next t) : execRdBits j t = .next t := by
  unfold execRdBits at h
  split at h <;> rename_i hj <;> cases h
  · exact if_pos hj
  · exact if_neg hj

theorem execRdClen_repeated {k : Arg} (h : execRdClen k s = .next t) : execRdClen k t = .next t := by
  unfold execRdClen at h
  split at h
  · rename_i hk
    cases h
    exact if_pos hk
  · rename_i hk
    split at h <;> cases h
    rename_i c hc
    refine (if_neg hk).trans ?_
    rw [respond_code, hc]
    rfl

theorem execRdCbits_repeated {k : BitVec 14} {j : BitVec 8} (h : execRdCbits k j s = .next t) :
    execRdCbits k j t = .next t := by
  unfold execRdCbits at h
  split at h
  · rename_i hk
    cases h
    exact if_pos hk
  · rename_i hk
    split at h
    · rename_i c hc
      split at h <;> rename_i hj <;> cases h <;> refine (if_neg hk).trans ?_
      · rw [raise_code, hc]
        exact if_pos hj
      · rw [respond_code, hc]
        exact if_neg hj
    · cases h

/-- BUILD reads SRC and the parameters, and writes the table. -/
theorem execBuild_repeated (h : execBuild s = .next t) : execBuild t = .next t := by
  unfold execBuild at h
  split at h
  · rename_i hs
    cases h
    exact if_pos hs
  · rename_i hs
    split at h <;> rename_i hf <;> cases h <;> refine (if_neg hs).trans ?_
    · rw [raise_params, raise_src, hf]
      rfl
    · rw [respond_params, respond_src, hf]
      rfl

/-- ENCODE reads SRC, the table and the parameters, and writes BITS. -/
theorem execEncode_repeated (h : execEncode s = .next t) : execEncode t = .next t := by
  unfold execEncode at h
  split at h
  · rename_i hu
    cases h
    rw [execEncode, raise_ft, raise_src, hu]
    rfl
  · rename_i hu
    split at h <;> rename_i hl <;> cases h
    · rw [execEncode, raise_ft, raise_src, hu]
      simp only [raise_params, raise_code, hl]
      rfl
    · rw [execEncode, respond_ft, respond_src, hu]
      simp only [respond_params, respond_code, hl]
      rfl

/-- DECODE reads BITS and the table, and writes DST and TAIL. -/
theorem execDecode_repeated (h : execDecode s = .next t) : execDecode t = .next t := by
  cases h
  rfl

/-- Settles O47, command by command. -/
theorem repeatedCommandChangesNothingMore : Obligations.RepeatedCommandChangesNothingMore := by
  intro i s t hi he
  cases i with
  | build => exact execBuild_repeated he
  | encode => exact execEncode_repeated he
  | decode => exact execDecode_repeated he
  | rdReg => exact execRdReg_repeated he
  | rdBits => exact execRdBits_repeated he
  | rdClen => exact execRdClen_repeated he
  | rdCbits => exact execRdCbits_repeated he
  | rdSrc | rdDst | rdFsym | rdFcnt | rdCof | rdNkind | rdNw | rdNl | rdNr =>
    obtain ⟨c, info, r, rfl⟩ := read_frame rfl he
    exact answer_repeated he
  | nop | clear | pushSym | pushBits | noise => cases hi

end Sys2Proof.Machine
end

section
/-! The encoding (spec 30_encoding.md R80 to R87): the decoder and the encoder undo each other, the decoder refuses exactly
the words of R85, and what the block answers to an illegal word and to a command. -/

namespace Sys2Proof.Machine

open Sys2Proof.Claims

/-! ## From the command to its word and back -/

/-- Settles O1: the family of round trips of Laws/PerInstr.lean, command by command. -/
theorem decodeOfEncodedCommand : Obligations.DecodeOfEncodedCommand := by
  intro i
  cases i with
  | nop => exact Laws.RoundTrip.nop
  | clear mask => exact Laws.RoundTrip.clear mask
  | pushSym sym => exact Laws.RoundTrip.pushSym sym
  | pushBits n value => exact Laws.RoundTrip.pushBits n value
  | build => exact Laws.RoundTrip.build
  | encode => exact Laws.RoundTrip.encode
  | noise p => exact Laws.RoundTrip.noise p
  | decode => exact Laws.RoundTrip.decode
  | rdReg r => exact Laws.RoundTrip.rdReg r
  | rdSrc k => exact Laws.RoundTrip.rdSrc k
  | rdBits j => exact Laws.RoundTrip.rdBits j
  | rdDst k => exact Laws.RoundTrip.rdDst k
  | rdFsym k => exact Laws.RoundTrip.rdFsym k
  | rdFcnt k => exact Laws.RoundTrip.rdFcnt k
  | rdClen k => exact Laws.RoundTrip.rdClen k
  | rdCbits k j => exact Laws.RoundTrip.rdCbits k j
  | rdCof sym => exact Laws.RoundTrip.rdCof sym
  | rdNkind x => exact Laws.RoundTrip.rdNkind x
  | rdNw x => exact Laws.RoundTrip.rdNw x
  | rdNl x => exact Laws.RoundTrip.rdNl x
  | rdNr x => exact Laws.RoundTrip.rdNr x

theorem decode_of_encode_eq {i : Instr} {w : Word} (hi : WellFormed i) (h : encode i = w) : decode w = .ok i :=
  h ▸ decodeOfEncodedCommand i hi

/-- Settles O4: each word is the one the encoder writes, so it is read back. -/
theorem writtenWordsDecode : Obligations.WrittenWordsDecode :=
  ⟨decode_of_encode_eq rfl (by decide), decode_of_encode_eq rfl (by decide), decode_of_encode_eq rfl (by decide),
    decode_of_encode_eq (by decide) (by decide), decode_of_encode_eq rfl (by decide),
    decode_of_encode_eq rfl (by decide), decode_of_encode_eq rfl (by decide)⟩

/-! ## From the word to its command and back -/

theorem legalIf_eq_ok_iff {ok : Bool} {e : Illegal} {i j : Instr} : legalIf ok e i = .ok j ↔ ok = true ∧ i = j := by
  cases ok <;> simp [legalIf]

/-- Both fields are tested for 0 (30_encoding.md R85 clause 2). -/
theorem fields_beq_zero_iff {sel : Sel} {arg : Arg} : (sel == 0 && arg == 0) = true ↔ sel = 0 ∧ arg = 0 := by
  rw [Bool.and_eq_true, beq_iff_eq, beq_iff_eq]

/-- PUSH.BITS is read from fields that pass both of its checks. -/
theorem decodePushBits_eq_ok_iff {sel : Sel} {arg : Arg} {i : Instr} :
    decodePushBits sel arg = .ok i ↔
      sel.toNat ≤ 21 ∧ arg.toNat < 2 ^ (sel.toNat + 1) ∧ .pushBits (sel.toNat + 1) arg = i := by
  unfold decodePushBits
  split_ifs with hn hv
  · simp [hn]
  · simp [hv]
  · simp [Nat.not_lt.1 hn, Nat.not_le.1 hv]

theorem encode_of_decodePushBits {sel : Sel} {arg : Arg} {i : Instr} (h : decodePushBits sel arg = .ok i) :
    WellFormed i ∧ encode i = packFields 3 sel arg := by
  obtain ⟨hn, hv, rfl⟩ := decodePushBits_eq_ok_iff.1 h
  constructor
  · simp only [WellFormed, wellFormed, Bool.and_eq_true, decide_eq_true_eq]
    exact ⟨⟨by omega, by omega⟩, hv⟩
  · rw [encode, Nat.add_sub_cancel, BitVec.ofNat_toNat, BitVec.setWidth_eq]

/-- Each read space is written back into SEL; RD.CBITS puts its two fields together again. -/
theorem encode_of_decodeRead {sel : Nat} {arg : Arg} {i : Instr} (h : decodeRead sel arg = .ok i) :
    WellFormed i ∧ encode i = packFields 8 (BitVec.ofNat 5 sel) arg := by
  unfold decodeRead at h
  split at h <;> cases h
  case h_8 => exact ⟨rfl, congrArg (packFields 8 7) (cbits_append arg)⟩
  all_goals exact ⟨rfl, rfl⟩

/-- A command read from three fields is well formed, and the encoder packs those fields. The arms stand in the order of
the opcodes: `h_4` is PUSH.BITS, `h_9` READ, and `h_10` the reserved ones. -/
theorem encode_of_decodeFields {op sel : Sel} {arg : Arg} {i : Instr} (h : decodeFields op sel arg = .ok i) :
    WellFormed i ∧ encode i = packFields op.toNat sel arg := by
  unfold decodeFields at h
  split at h <;> rename_i hop
  case h_10 => cases h
  all_goals rw [hop]
  case h_4 => exact encode_of_decodePushBits h
  case h_9 => simpa only [BitVec.ofNat_toNat, BitVec.setWidth_eq] using encode_of_decodeRead h
  all_goals obtain ⟨hz, rfl⟩ := legalIf_eq_ok_iff.1 h
  case h_2 | h_3 | h_7 =>
    rw [beq_iff_eq.1 hz]
    exact ⟨rfl, rfl⟩
  case h_1 | h_5 | h_6 | h_8 =>
    obtain ⟨rfl, rfl⟩ := fields_beq_zero_iff.1 hz
    exact ⟨rfl, rfl⟩

/-- Settles O2: a word is the pack of the fields it was decoded from. -/
theorem encodeOfDecodedWord : Obligations.EncodeOfDecodedWord := by
  intro w i h
  obtain ⟨hi, he⟩ := encode_of_decodeFields h
  exact ⟨hi, he.trans (packFields_fields w)⟩

/-! ## The words the decoder refuses -/

theorem legalIf_refuses_iff {ok : Bool} {e : Illegal} {i : Instr} :
    (∃ e', legalIf ok e i = .error e') ↔ ok = false := by
  cases ok <;> simp [legalIf]

theorem decodePushBits_refuses_iff {sel : Sel} {arg : Arg} :
    (∃ e, decodePushBits sel arg = .error e) ↔
      21 < sel.toNat ∨ (sel.toNat ≤ 21 ∧ 2 ^ (sel.toNat + 1) ≤ arg.toNat) := by
  unfold decodePushBits
  split_ifs with hn hv
  · simp [hn]
  · simp [hv, Nat.not_lt.1 hn]
  · simp [hv, hn]

theorem decodeRead_refuses_iff {sel : Nat} {arg : Arg} : (∃ e, decodeRead sel arg = .error e) ↔ 13 ≤ sel := by
  constructor
  · rintro ⟨e, h⟩
    by_contra hlt
    have hsel : sel < 13 := Nat.not_le.1 hlt
    interval_cases sel <;> cases h
  · intro h
    obtain ⟨n, rfl⟩ := Nat.exists_eq_add_of_le' h
    exact ⟨_, rfl⟩

/-- Settles O3: opcode by opcode, the clauses of R85 about that opcode are what its arm of the decoder refuses. The arms
stand in the order of the opcodes, as in `encode_of_decodeFields`. -/
theorem decoderRefusesExactlyIllegalWords : Obligations.DecoderRefusesExactlyIllegalWords := by
  intro w
  unfold decode decodeFields IllegalWord
  split <;> rename_i hop
  case h_10 =>
    have hreserved : 9 ≤ (opField w).toNat := by
      simp only [imp_false] at *
      omega
    exact iff_of_true ⟨_, rfl⟩ (.inl hreserved)
  case h_4 => simp [hop, decodePushBits_refuses_iff]
  case h_9 => simp [hop, decodeRead_refuses_iff]
  all_goals simp [hop, legalIf_refuses_iff, BitVec.toNat_eq, imp_iff_not_or]

/-! ## What the block answers -/

theorem acceptWord_of_refused {w : Word} {e : Illegal} (h : decode w = .error e) (s : State) :
    acceptWord w s = .stay (raise .illegalCommand w s) := by
  rw [acceptWord, h]

/-- Settles O6: the turn of a ready block is to accept the offered word, which the decoder refuses, and that is error
entry with the word. -/
theorem illegalWordRaisesIllegalCommand : Obligations.IllegalWordRaisesIllegalCommand := by
  rintro s w rest ⟨hp, hw⟩ hr ho hill
  obtain ⟨e, he⟩ := (decoderRefusesExactlyIllegalWords w).2 hill
  exact step_of_stay ((turn_accept hr hp hw ho).trans (acceptWord_of_refused he _))

/-- Settles O11: a command that succeeds or raises has set PENDING and its row has no waiting NOISE; else it waits. -/
theorem everyCommandAnswers : Obligations.EveryCommandAnswers := by
  rintro i s t ⟨-, hw⟩ he
  rcases exec_next he with ⟨v, u, rfl, hrow⟩ | ⟨e, info, -, rfl⟩ | ⟨p, hi, -, ht⟩
  · obtain ⟨-, -, hwaiting, -, -⟩ := hrow.frame
    exact .inl ⟨hwaiting.trans hw, _, rfl, fun hcode => absurd rfl hcode⟩
  · exact .inl ⟨hw, _, rfl, fun _ => rfl⟩
  · exact .inr ⟨p, hi, ht⟩

end Sys2Proof.Machine
end

section
/-! The control commands (spec 40_control.md R100 and R101): both always complete, NOP with the state as it was and CLEAR
with the groups of its mask emptied. -/

namespace Sys2Proof.Machine

open Sys2Proof.Claims

theorem done_eq_okWith (v : Word) (s : State) : done v s = okWith v s := rfl

theorem exec_nop (s : State) : exec .nop s = done 0 s := rfl

theorem exec_clear (mask : Sel) (s : State) : exec (.clear mask) s = done 0 (clearGroups mask s) := rfl

/-- Settles O12: NOP is done with 0 at once. -/
theorem nopChangesNothing : Obligations.NopChangesNothing := fun s =>
  (exec_nop s).trans (done_eq_okWith 0 s)

/-- Settles O13: what CLEAR answers with is, component by component, what the field lemmas of `clearGroups` say. -/
theorem clearEmptiesSelectedGroups : Obligations.ClearEmptiesSelectedGroups := by
  intro mask s
  calc exec (.clear mask) s
      _ = okWith 0 (clearGroups mask s) := (exec_clear mask s).trans (done_eq_okWith 0 _)
      _ = _ := by
        simp only [okWith, clearGroups_src, clearGroups_bits, clearGroups_dst, clearGroups_tail, clearGroups_ft,
          clearGroups_node, clearGroups_code, clearGroups_errcode, clearGroups_errinfo, clearGroups_params,
          clearGroups_waiting, clearGroups_entropy, clearGroups_offered, clearGroups_inputs]

end Sys2Proof.Machine
end

section
/-! The load commands (spec 41_load.md R110 and R111): PUSH.SYM and PUSH.BITS append what their operand holds, or raise the
first error that applies and append nothing. -/

namespace Sys2Proof.Machine

open Sys2Proof.Claims

theorem fail_eq_errWith (e : Error) (info : Word) (s : State) : fail e info s = errWith e.code info s := rfl

/-! ## PUSH.BITS -/

/-- Bit `i` pushed is `value[n - 1 - i]`: the most significant of the `n` comes first. -/
theorem pushedBits_getElem? {n i : Nat} (value : Arg) (h : i < n) :
    (pushedBits n value)[i]? = some (value.getLsbD (n - 1 - i)) := by
  rw [pushedBits, List.getElem?_map, List.getElem?_range h, Option.map_some]

section
variable {n : Nat} {value : Arg} {s : State}

theorem exec_pushBits_of_overflow (h : s.params.bitCap < s.bits.length + n) :
    exec (.pushBits n value) s = fail .capacity (natWord s.bits.length) s :=
  if_pos h

theorem exec_pushBits_of_fits (h : s.bits.length + n ≤ s.params.bitCap) :
    exec (.pushBits n value) s =
      done (natWord (s.bits.length + n)) { s with bits := s.bits ++ pushedBits n value } := by
  refine (if_neg h.not_gt).trans ?_
  rw [List.length_append, pushedBits_length]

end

/-- Settles O15: the bits that fit are `pushedBits`, of which the length and each bit are known. -/
theorem pushBitsAppendsMostSignificantFirst : Obligations.PushBitsAppendsMostSignificantFirst := by
  refine fun n value s => ⟨fun hover => ?_, fun hfits => ?_⟩
  · exact (exec_pushBits_of_overflow hover).trans (fail_eq_errWith _ _ s)
  · exact ⟨pushedBits n value, pushedBits_length n value, fun i hi => pushedBits_getElem? value hi,
      (exec_pushBits_of_fits hfits).trans (done_eq_okWith _ _)⟩

/-! ## PUSH.SYM -/

theorem symbolOf_of_gt {a : Arg} (h : 0x10FFFF < a.toNat) : symbolOf a = none :=
  dif_neg (by omega)

theorem symbolOf_of_le {a : Arg} (h : a.toNat ≤ 0x10FFFF) : ∃ c : Symbol, c.val = a.toNat ∧ symbolOf a = some c :=
  ⟨⟨a.toNat, Nat.lt_succ_of_le h⟩, rfl, dif_pos _⟩

section
variable {sym : Arg} {c : Symbol} {s : State}

theorem exec_pushSym_of_not_symbol (h : symbolOf sym = none) :
    exec (.pushSym sym) s = fail .invalidSymbol (argWord sym) s := by
  change execPushSym sym s = _
  rw [execPushSym, h]

theorem exec_pushSym_of_symbol (h : symbolOf sym = some c) :
    exec (.pushSym sym) s =
      if s.src.length = s.params.srcCap then fail .capacity (natWord s.src.length) s
      else done (natWord (s.src.length + 1)) { s with src := s.src ++ [c] } := by
  change execPushSym sym s = _
  rw [execPushSym, h]
  simp only [List.length_append, List.length_singleton]

end

/-- Settles O14: whether the operand is a symbol decides first, and only then whether SRC is full. -/
theorem pushSymAppendsOneSymbol : Obligations.PushSymAppendsOneSymbol := by
  refine fun sym s => ⟨fun hbig => ?_, fun hsym hfull => ?_, fun hsym hroom => ?_⟩
  · exact (exec_pushSym_of_not_symbol (symbolOf_of_gt hbig)).trans (fail_eq_errWith _ _ s)
  · obtain ⟨c, -, hc⟩ := symbolOf_of_le hsym
    rw [exec_pushSym_of_symbol hc, if_pos hfull]
    exact fail_eq_errWith _ _ s
  · obtain ⟨c, hval, hc⟩ := symbolOf_of_le hsym
    refine ⟨c, hval, ?_⟩
    rw [exec_pushSym_of_symbol hc, if_neg hroom]
    exact done_eq_okWith _ _

end Sys2Proof.Machine
end

section
/-! BUILD (spec 42_build.md R120 to R127): when the frequency table overflows and what it counts, which nodes the queue
and the tree join, and that the codewords are the paths of a tree that leads every bit sequence to one leaf. -/

namespace Sys2Proof.Machine

open Sys2Proof.Claims

/-! ## Where the frequency table overflows -/

/-- A symbol beyond `n` distinct ones stands at index `i` (42_build.md R121). -/
def OverflowsAt (n : Nat) (src : List Symbol) (i : Nat) : Prop :=
  ∃ c, src[i]? = some c ∧ c ∉ src.take i ∧ (src.take i).dedup.length = n

theorem dedup_length_lt_of_new {u l : List Symbol} {c : Symbol} (hu : u ⊆ l) (hc : c ∈ l) (hn : c ∉ u) :
    u.dedup.length < l.dedup.length := by
  rw [← List.card_toFinset, ← List.card_toFinset]
  refine Finset.card_lt_card ((Finset.ssubset_iff_of_subset fun d hd => ?_).2 ⟨c, ?_, ?_⟩)
  · exact List.mem_toFinset.2 (hu (List.mem_toFinset.1 hd))
  · exact List.mem_toFinset.2 hc
  · rwa [List.mem_toFinset]

section
variable {n i j : Nat} {src : List Symbol}

theorem OverflowsAt.lt_length (h : OverflowsAt n src i) : i < src.length := by
  obtain ⟨c, hc, -, -⟩ := h
  exact (List.getElem?_eq_some_iff.1 hc).1

/-- Every longer beginning has more than `n` distinct symbols. -/
theorem OverflowsAt.lt_dedup_take (h : OverflowsAt n src i) (hij : i < j) : n < (src.take j).dedup.length := by
  obtain ⟨c, hc, hnew, rfl⟩ := h
  have hcj : c ∈ src.take j := List.mem_of_getElem? ((List.getElem?_take_of_lt hij).trans hc)
  exact dedup_length_lt_of_new (List.take_subset_take_left src hij.le) hcj hnew

theorem OverflowsAt.lt_dedup (h : OverflowsAt n src i) : n < src.dedup.length := by
  simpa only [List.take_length] using h.lt_dedup_take h.lt_length

theorem OverflowsAt.le (hi : OverflowsAt n src i) (hj : OverflowsAt n src j) : j ≤ i := by
  by_contra hlt
  obtain ⟨-, -, -, hn⟩ := hj
  exact (hi.lt_dedup_take (Nat.not_le.1 hlt)).ne' hn

end

/-- `FreqTable` counts the whole of `src`, or overflows. -/
theorem freqTable_cases (n : Nat) (src : List Symbol) :
    (∃ ft, freqTable n src = .ok ft ∧ Counts n src ft) ∨ (∃ i, freqTable n src = .error i ∧ OverflowsAt n src i) := by
  rcases freqLoop_spec (counts_nil n) src with hok | ⟨u, c, v, ft, rfl, he, hu, hfull, hnew⟩
  · exact .inl hok
  · rw [List.length_nil, Nat.zero_add] at he
    refine .inr ⟨u.length, he, c, by simp, ?_, ?_⟩
    · rwa [List.take_left]
    · rw [List.take_left, ← hfull]
      exact hu.length_eq.symm

/-- Settles O18: the loop ends with an overflow or with a table, and where `src` overflows it does so at one index, and
has more distinct symbols than a table holds. -/
theorem freqTableOverflowsAtFirstExcess : Obligations.FreqTableOverflowsAtFirstExcess := by
  intro n src i
  change _ ↔ OverflowsAt n src i
  rcases freqTable_cases n src with ⟨ft, hok, hc⟩ | ⟨j, herr, hj⟩
  · refine iff_of_false (by simp [hok]) fun hi => ?_
    have hlt := hi.lt_dedup
    rw [← hc.length_eq] at hlt
    exact hlt.not_ge hc.le
  · rw [herr, Except.error.injEq]
    exact ⟨fun hji => hji ▸ hj, fun hi => (hi.le hj).antisymm (hj.le hi)⟩

/-- Settles O17: what the loop keeps of the symbols seen so far, at its end. -/
theorem freqTableCountsOccurrences : Obligations.FreqTableCountsOccurrences := by
  intro n src ft h
  obtain ⟨hcount, hnodup, hmem, horder, htotal, hle⟩ := freqTable_counts h
  exact ⟨hnodup, hmem, hcount, horder, htotal, hle⟩

/-! ## The command -/

section
variable {s : State}

theorem exec_build_of_nil (h : s.src = []) : exec .build s = fail .emptyInput 0 s :=
  if_pos h

theorem exec_build_of_overflow {i : Nat} (h : s.src ≠ []) (hf : freqTable s.params.nSym s.src = .error i) :
    exec .build s = fail .tooManySymbols (natWord i) s := by
  refine (if_neg h).trans ?_
  rw [hf]

theorem exec_build_of_table {ft : List Entry} (h : s.src ≠ []) (hf : freqTable s.params.nSym s.src = .ok ft) :
    exec .build s = done (natWord ft.length)
      { s with ft := ft, node := tree ft, code := codes ft (tree ft) (rootOf (tree ft)) } := by
  refine (if_neg h).trans ?_
  rw [hf]

end

/-- Settles O16: BUILD goes by what SRC is and by how `FreqTable` ends, which has no overflow where the distinct symbols
are at most N_SYM. -/
theorem buildWritesWholeTable : Obligations.BuildWritesWholeTable := by
  refine fun s => ⟨fun h => ?_, fun i h hf => ?_, fun ft h hf => ?_, fun h hle => ?_⟩
  · exact (exec_build_of_nil h).trans (fail_eq_errWith _ _ s)
  · exact (exec_build_of_overflow h hf).trans (fail_eq_errWith _ _ s)
  · exact (exec_build_of_table h hf).trans (done_eq_okWith _ _)
  · rcases freqTable_cases s.params.nSym s.src with ⟨ft, hf, hc⟩ | ⟨i, -, hi⟩
    · exact ⟨ft, hf, hc.length_eq, (exec_build_of_table h hf).trans (done_eq_okWith _ _)⟩
    · exact absurd hle hi.lt_dedup.not_ge

/-! ## The queue and the tree -/

/-- Settles O19, from what `PopMin` does (`popMin_spec`), with the key order written out. -/
theorem popMinTakesTheLeastKey : Obligations.PopMinTakesTheLeastKey := by
  refine ⟨fun q => popMin_eq_none, fun q q' k h => ⟨popMin_perm h, fun x hx => ?_⟩⟩
  obtain ⟨-, hleast, -⟩ := popMin_spec h
  exact (hleast x hx).imp_right (Key.before_iff k x).1

/-- Settles O21: the merge loop keeps this of every node it has made (`Arena.greedy`). -/
theorem treeJoinsTheTwoLeastNodes : Obligations.TreeJoinsTheTwoLeastNodes := by
  intro ft x w l r h hx
  obtain ⟨_, ha⟩ := tree_arena h
  exact ha.greedy x w l r hx

/-! ## The codewords -/

/-- Settles O22: what the walk records at a leaf is the path to it. -/
theorem codewordsAreRootPaths : Obligations.CodewordsAreRootPaths := by
  refine fun ft => ⟨fun h => codes_single h _ _, fun h => ⟨codes_length, fun k hk => ?_⟩⟩
  have hb := List.getElem?_eq_getElem (hk.trans_eq codes_length.symm)
  exact ⟨_, hb, codes_follow h hb⟩

/-- A good state has one codeword per entry (10_state.md R35 point 2). -/
theorem inv_code_length {s : State} (h : Inv s) : s.code.length = s.ft.length := by
  rcases inv_table h with ⟨hft, -, hcode⟩ | hb
  · rw [hft, hcode]
    rfl
  · rw [hb.code_eq, codes_length]

theorem inv_code_eq_nil_iff {s : State} (h : Inv s) : s.code = [] ↔ s.ft = [] := by
  rw [← List.length_eq_zero_iff, inv_code_length h, List.length_eq_zero_iff]

theorem maxlen_of_code_nil {s : State} (h : s.code = []) : s.maxlen = 0 := by
  rw [State.maxlen, h]
  rfl

/-- The bounds of a codeword of a good state (42_build.md R127 property 2). -/
theorem inv_codeword_bounds {s : State} (h : Inv s) {c : Bits} (hc : c ∈ s.code) :
    1 ≤ c.length ∧ c.length ≤ max 1 (s.ft.length - 1) ∧ c.length ≤ s.params.lmax := by
  rcases inv_table h with ⟨-, -, hcode⟩ | hb
  · simp [hcode] at hc
  · rw [hb.code_eq] at hc
    obtain ⟨k, hk⟩ := List.getElem?_of_mem hc
    obtain ⟨hpos, hle⟩ := codes_length_bounds hb.ndist_pos hk
    have hft := hb.ndist_le
    have hsym := h.params_legal.nSym_range
    refine ⟨hpos, hle, ?_⟩
    rw [Params.lmax]
    omega

/-- Settles O24: MAXLEN is the largest of lengths that each have the bounds, and where there is an entry there is a
codeword. -/
theorem codewordLengthsBounded : Obligations.CodewordLengthsBounded := by
  intro s h
  refine ⟨fun c => inv_codeword_bounds h, maxlen_le fun c hc => ?_, fun c => le_maxlen, fun hne => ?_, fun hnil => ?_⟩
  · obtain ⟨-, -, hlmax⟩ := inv_codeword_bounds h hc
    exact hlmax
  · exact maxlen_attained (mt (inv_code_eq_nil_iff h).1 hne)
  · exact maxlen_of_code_nil ((inv_code_eq_nil_iff h).2 hnil)

/-- A table that is not empty is one that BUILD wrote. -/
theorem inv_tableBuilt {s : State} (h : Inv s) (hne : s.ft ≠ []) : TableBuilt s :=
  h.table.resolve_left fun ht => hne ht.ft_empty

/-- From the root, bits either pass a leaf, and its codeword begins them, or end inside the tree, and they begin the longer
codeword of a leaf below. -/
theorem codes_prefix_or_extends {ft : List Entry} (h : 2 ≤ ft.length) (b : Bits) :
    ∃ (k : Nat) (c : Bits), (codes ft (tree ft) (rootOf (tree ft)))[k]? = some c ∧
      (c <+: b ∨ b.length < c.length) := by
  have h₁ : 1 ≤ ft.length := by omega
  have hroot : rootOf (tree ft) < (tree ft).length := Nat.sub_one_lt (List.length_pos_iff.2 (tree_ne_nil h₁)).ne'
  rcases follow_or_leaf h₁ hroot b with ⟨y, hy, hge, hlt⟩ | ⟨c, k, hc, hk, hf⟩
  · obtain ⟨d, k, hk, hd⟩ := tree_leaf_below h₁ hlt
    have hpath : follow (tree ft) (rootOf (tree ft)) (b ++ d) = some k := by rw [follow_append, hy]; exact hd
    have hne : d ≠ [] := by
      rintro rfl
      rw [follow, Option.some.injEq] at hd
      omega
    refine ⟨k, b ++ d, codes_of_follow h hk hpath, .inr ?_⟩
    rw [List.length_append]
    exact Nat.lt_add_of_pos_right (List.length_pos_iff.2 hne)
  · exact ⟨k, c, codes_of_follow h hk hf, .inl hc⟩

/-- Two codewords that begin the same bits are one (10_state.md R36). -/
theorem prefixFree_eq_of_prefix {code : List Bits} (h : PrefixFree code) {i j : Nat} {c d b : Bits}
    (hi : code[i]? = some c) (hj : code[j]? = some d) (hc : c <+: b) (hd : d <+: b) : i = j := by
  by_contra hij
  rcases List.prefix_or_prefix_of_prefix hc hd with hcd | hdc
  · exact h i j c d hij hi hj hcd
  · exact h j i d c (Ne.symm hij) hj hi hdc

/-- Settles O25: bits as long as MAXLEN are begun by no codeword longer than they are, so the path they lead passes a
leaf; and by one codeword only, since the code is prefix-free. -/
theorem codeIsComplete : Obligations.CodeIsComplete := by
  intro s b h h₂ hlen
  have hb := inv_tableBuilt h (List.length_pos_iff.1 (by omega))
  obtain ⟨k, c, hk, hcb⟩ := codes_prefix_or_extends h₂ b
  rw [← hb.code_eq] at hk
  have hc : c <+: b := hcb.resolve_right fun hlt =>
    absurd (le_maxlen (List.mem_of_getElem? hk)) (by omega)
  refine ⟨k, ⟨c, hk, hc⟩, ?_⟩
  rintro j ⟨d, hj, hd⟩
  exact prefixFree_eq_of_prefix (inv_prefixFree h) hj hk hd hc

/-- The key of the leaf of an entry is its count and its index (42_build.md R122). -/
theorem keyOf_leaf {ft : List Entry} (h : 1 ≤ ft.length) {k : Nat} {e : Entry} (he : ft[k]? = some e) :
    keyOf (tree ft) k = (e.cnt, k) := by
  rw [keyOf, (tree_leaf_iff h).2 he]
  rfl

/-- Settles O26: the leaf of the lower count has the lesser key, so it is not the higher one in the tree (`depth_le`). -/
theorem higherCountNeverLongerCodeword : Obligations.HigherCountNeverLongerCodeword := by
  intro s j k ej ek cj ck h hej hek hcj hck hlt
  obtain ⟨hj, -⟩ := List.getElem?_eq_some_iff.1 hej
  obtain ⟨hk, -⟩ := List.getElem?_eq_some_iff.1 hek
  have hb := inv_tableBuilt h (List.ne_nil_of_mem (List.mem_of_getElem? hej))
  have hjk : j ≠ k := by
    rintro rfl
    cases hej.symm.trans hek
    exact hlt.false
  have h₂ : 2 ≤ s.ft.length := by omega
  rw [hb.code_eq] at hcj hck
  refine depth_le hb.ndist_pos hb.counts_pos ck cj (codes_follow h₂ hck) (codes_follow h₂ hcj) ?_
  rw [keyOf_leaf hb.ndist_pos hek, keyOf_leaf hb.ndist_pos hej, Key.before_iff]
  exact .inl hlt

end Sys2Proof.Machine
end

section
/-! The codec (spec 43_codec.md R150 to R154): ENCODE goes by the first symbol without an entry, and then by the first
codeword that does not fit; DECODE always completes, walks the tree, and gives back what ENCODE wrote. -/

namespace Sys2Proof.Machine

open Sys2Proof.Claims

/-! ## ENCODE -/

section
variable {ft : List Entry} {code : List Bits} {src u v : List Symbol} {c : Symbol}

/-- Every symbol has an entry. -/
theorem firstUnknown_eq_none_of_mem (h : ∀ d ∈ src, d ∈ ft.map Entry.sym) : firstUnknown ft src = none :=
  firstUnknown_eq_none.2 fun d hd hn => entryOf_eq_none.1 hn (h d hd)

/-- The first symbol without an entry stands behind those that have one. -/
theorem firstUnknown_of_first (hu : ∀ d ∈ u, d ∈ ft.map Entry.sym) (hc : c ∉ ft.map Entry.sym) :
    firstUnknown ft (u ++ c :: v) = some u.length := by
  have hnone : firstUnknown ft u = none := firstUnknown_eq_none_of_mem hu
  rw [firstUnknown] at hnone ⊢
  rw [List.findIdx?_append, hnone, List.findIdx?_cons, entryOf_eq_none.2 hc]
  simp

/-- A symbol with a codeword has an entry. -/
theorem mem_of_codewordOf {w : Bits} (h : codewordOf ft code c = some w) : c ∈ ft.map Entry.sym := by
  by_contra hc
  rw [codewordOf, entryOf_eq_none.2 hc] at h
  cases h

/-- Symbols that all have a codeword all have an entry. -/
theorem mem_of_map_codewordOf {ws : List Bits} (h : src.map (codewordOf ft code) = ws.map some) :
    ∀ d ∈ src, d ∈ ft.map Entry.sym := by
  intro d hd
  have hm : codewordOf ft code d ∈ ws.map some := h ▸ List.mem_map_of_mem hd
  obtain ⟨w, -, hw⟩ := List.mem_map.1 hm
  exact mem_of_codewordOf hw.symm

end

section
variable {s : State}

theorem exec_encode_of_unknown {i : Nat} (h : firstUnknown s.ft s.src = some i) :
    exec .encode s = fail .unknownSymbol (natWord i) s := by
  change execEncode s = _
  rw [execEncode, h]

/-! Where every symbol has an entry, the second loop decides. -/

section
variable (h : ∀ d ∈ s.src, d ∈ s.ft.map Entry.sym)
include h

theorem exec_encode_of_full {i : Nat}
    (hl : encodeLoop s.params.bitCap (codewordOf s.ft s.code) [] 0 s.src = .full i) :
    exec .encode s = fail .capacity (natWord i) s := by
  change execEncode s = _
  rw [execEncode, firstUnknown_eq_none_of_mem h, hl]

theorem exec_encode_of_done {out : Bits}
    (hl : encodeLoop s.params.bitCap (codewordOf s.ft s.code) [] 0 s.src = .done out) :
    exec .encode s = done (natWord out.length) { s with bits := out } := by
  change execEncode s = _
  rw [execEncode, firstUnknown_eq_none_of_mem h, hl]

end

end

/-- Settles O28: every symbol that has a codeword has an entry, and the second loop appends the codewords. -/
theorem encodeConcatenatesCodewords : Obligations.EncodeConcatenatesCodewords := by
  intro s ws hws hfit
  have hloop := encodeLoop_done hws [] 0 (by simpa using hfit)
  rw [List.nil_append] at hloop
  exact (exec_encode_of_done (mem_of_map_codewordOf hws) hloop).trans (done_eq_okWith _ _)

/-- Settles O29: the first loop finds the index of UNKNOWN_SYMBOL before the second, which finds that of CAPACITY,
begins. -/
theorem encodeErrorsAtLeastIndex : Obligations.EncodeErrorsAtLeastIndex := by
  intro s u v c hsrc
  refine ⟨fun hu hc => ?_, fun ws w hknown hu hc hfit hover => ?_⟩
  · have hfirst : firstUnknown s.ft s.src = some u.length := hsrc ▸ firstUnknown_of_first hu hc
    exact (exec_encode_of_unknown hfirst).trans (fail_eq_errWith _ _ s)
  · have hloop := encodeLoop_full (v := v) hu hc [] 0 (by simpa using hfit) (by simpa using hover)
    rw [← hsrc, Nat.zero_add] at hloop
    exact (exec_encode_of_full hknown hloop).trans (fail_eq_errWith _ _ s)

/-! ## DECODE -/

theorem exec_decode (s : State) :
    exec .decode s = okWith (natWord (decodeBits s.ft s.code s.bits).1.length)
      { s with dst := (decodeBits s.ft s.code s.bits).1, tail := (decodeBits s.ft s.code s.bits).2.length } := rfl

/-- Each bit that DECODE reads becomes at most one symbol, or stays in the tail (00_scope.md R5). -/
theorem decodeBits_length_le (ft : List Entry) (code : List Bits) (b : Bits) :
    (decodeBits ft code b).1.length + (decodeBits ft code b).2.length ≤ b.length := by
  simpa [decodeBits] using decodeLoop_length_le (rev ft code) [] [] b

/-- Settles O30: no branch of DECODE is an error. -/
theorem decodeNeverFails : Obligations.DecodeNeverFails := fun s =>
  ⟨_, _, exec_decode s, decodeBits_length_le s.ft s.code s.bits⟩

/-- Without a table no bits are a codeword (43_codec.md R153 case 1). -/
theorem decodeBits_of_no_entry (code : List Bits) (b : Bits) : decodeBits [] code b = ([], b) :=
  decodeLoop_no_match [] [] b fun c _ _ => rev_nil code c

/-- The path to an internal node goes on to a leaf, so it is shorter than that leaf's codeword. -/
theorem length_lt_maxlen_of_follow {s : State} (h : TableBuilt s) (h₂ : 2 ≤ s.ft.length) {b : Bits} {y : Nat}
    (hf : follow s.node s.root b = some y) (hge : s.ft.length ≤ y) (hlt : y < s.node.length) :
    b.length < s.maxlen := by
  have hroot : s.root = rootOf s.node := rfl
  rw [hroot, h.node_eq] at hf
  obtain ⟨d, k, hk, hd⟩ := tree_leaf_below h.ndist_pos (h.node_eq ▸ hlt)
  have hne : d ≠ [] := by
    rintro rfl
    rw [follow, Option.some.injEq] at hd
    omega
  have hpath : follow (tree s.ft) (rootOf (tree s.ft)) (b ++ d) = some k := by rw [follow_append, hf]; exact hd
  have hcode : s.code[k]? = some (b ++ d) := h.code_eq ▸ codes_of_follow h₂ hk hpath
  have hmax := le_maxlen (List.mem_of_getElem? hcode)
  have hpos := List.length_pos_iff.2 hne
  rw [List.length_append] at hmax
  omega

/-- DECODE with two entries or more (43_codec.md R153 case 3): the walk starts at the root, an internal node, and the tail
is the path to the internal node it ends at. -/
theorem decodeBits_eq_treeDecode {s : State} (h : Inv s) (h₂ : 2 ≤ s.ft.length) :
    ((decodeBits s.ft s.code s.bits).1, (decodeBits s.ft s.code s.bits).2.length) =
      treeDecode s.node [] s.root 0 s.bits ∧ (decodeBits s.ft s.code s.bits).2.length < s.maxlen := by
  have hb := inv_tableBuilt h (List.length_pos_iff.1 (by omega))
  have hlen : s.node.length = 2 * s.ft.length - 1 := by rw [hb.node_eq, tree_length hb.ndist_pos]
  have hroot : s.root = s.node.length - 1 := rfl
  obtain ⟨tl, hdec, htl, y, hy, hge, hlt⟩ :=
    treeDecode_eq h hb h₂ s.bits [] [] s.root rfl (by omega) (by omega)
  rw [List.length_nil] at hdec htl
  rw [decodeBits, hdec]
  exact ⟨Prod.ext rfl htl, length_lt_maxlen_of_follow hb h₂ hy hge hlt⟩

/-- Settles O31, by the size of the table. -/
theorem decodeWalksTheTree : Obligations.DecodeWalksTheTree := by
  refine fun s h => ⟨_, _, exec_decode s, fun hft => ?_, fun e hft => ?_, fun h₂ => ?_⟩
  · rw [hft, decodeBits_of_no_entry]
    exact ⟨rfl, rfl⟩
  · have hb := inv_tableBuilt h (by simp [hft])
    have hcode : s.code = [[false]] := hb.code_eq.trans (codes_single (by simp [hft]) _ _)
    obtain ⟨tl, hdec, htl⟩ := decode_single e s.bits []
    rw [hft, hcode, decodeBits, hdec]
    exact ⟨rfl, htl⟩
  · obtain ⟨heq, hlt⟩ := decodeBits_eq_treeDecode h h₂
    exact ⟨heq, Nat.le_sub_one_of_lt hlt⟩

/-! ## The round trip -/

/-- What a BUILD that succeeds has left: SRC as it was, and a table. -/
theorem build_success {s t : State} {v : Word} (h : Inv s) (he : exec .build s = .next t)
    (hp : t.pending = some { code := 0, data := v }) : t.src = s.src ∧ TableBuilt t := by
  by_cases hs : s.src = []
  · cases (exec_build_of_nil hs).symm.trans he
    cases hp
  · cases hf : freqTable s.params.nSym s.src with
    | error i =>
      cases (exec_build_of_overflow hs hf).symm.trans he
      cases hp
    | ok ft =>
      cases (exec_build_of_table hs hf).symm.trans he
      obtain ⟨hpos, hle, hdistinct, hcounts, htotal, hnode, hcode⟩ := tableBuilt_of_freqTable h hs hf
      exact ⟨rfl, hpos, hle, hdistinct, hcounts, htotal, hnode, hcode⟩

/-- DECODE of the codewords of `src`, from any state with a prefix-free table (43_codec.md R154). -/
theorem exec_decode_of_codewords {s : State} {src : List Symbol} {ws : List Bits} (hpf : PrefixFree s.code)
    (hne : ∀ c ∈ s.code, c ≠ []) (hws : src.map (codewordOf s.ft s.code) = ws.map some) (hbits : s.bits = ws.flatten) :
    exec .decode s = okWith (natWord src.length) { s with dst := src, tail := 0 } := by
  rw [exec_decode, hbits, roundtrip hpf hne hws, List.length_nil]

/-- Settles O32: BUILD leaves a prefix-free table and SRC, ENCODE writes the codewords of SRC and leaves the table, and
DECODE reads them back. -/
theorem encodeThenDecodeIsIdentity : Obligations.EncodeThenDecodeIsIdentity := by
  intro s t₁ u₁ t₂ u₂ v₁ v₂ h hbuild hok₁ hsrc hft₁ hcode₁ hencode hok₂ hbits hft₂ hcode₂
  obtain ⟨hkeep, hb⟩ := build_success h hbuild hok₁
  obtain ⟨ws, hws, hflat, hft, hcode⟩ := encode_success hencode hok₂
  have hft' : u₂.ft = u₁.ft := hft₂.trans hft
  have hcode' : u₂.code = u₁.code := hcode₂.trans hcode
  have htable : u₂.code = codes t₁.ft (tree t₁.ft) (rootOf (tree t₁.ft)) :=
    (hcode'.trans hcode₁).trans hb.code_eq
  rw [hsrc.trans hkeep, ← hft', ← hcode'] at hws
  have hdecode := exec_decode_of_codewords (htable ▸ codes_prefixFree hb.ndist_pos)
    (htable ▸ codes_ne_nil hb.ndist_pos) hws (hbits.trans hflat)
  exact ⟨_, hdecode, rfl, rfl⟩

end Sys2Proof.Machine
end

section
/-! NOISE (spec 44_noise.md R170 and R171): a P above 1 is an error, missing draws are waited for, and else each bit
meets its own draw. The end points of P are the cases in which every draw decides alike. -/

namespace Sys2Proof.Machine

open Sys2Proof.Claims

/-- The draws below `p` among the next `n`, counted by their places. -/
theorem Entropy.countP_next (e : Entropy) (n p : Nat) :
    (e.next n).countP (fun r => decide (r.toNat < p)) =
      (List.range n).countP fun i => decide ((e.draw i).toNat < p) := by
  rw [Entropy.next, List.countP_map]
  rfl

/-- Fewer draws left than asked for are not an offer (70_reset_and_hazards.md R259). -/
theorem Entropy.offers_eq_false {e : Entropy} {n m : Nat} (hl : e.left = some m) (h : m < n) : e.offers n = false := by
  simp [Entropy.offers, hl, h]

section
variable {p : Arg} {s : State}

theorem exec_noise_of_gt (h : maxProbability < p.toNat) :
    exec (.noise p) s = fail .invalidProbability (argWord p) s :=
  if_pos h

theorem exec_noise_of_not_offered (hp : p.toNat ≤ maxProbability) (ho : s.entropy.offers s.bits.length = false) :
    exec (.noise p) s = .next { s with waiting := some p } := by
  change execNoise p s = _
  rw [execNoise, if_neg hp.not_gt, ho, if_neg Bool.false_ne_true]

/-- The answer counts the draws below P, and the loop decides the bits. -/
theorem exec_noise_of_offered (hp : p.toNat ≤ maxProbability) (ho : s.entropy.offers s.bits.length = true) :
    exec (.noise p) s =
      done (natWord ((List.range s.bits.length).countP fun i => decide ((s.entropy.draw i).toNat < p.toNat)))
        { s with
          bits := (noiseLoop p.toNat s.bits (s.entropy.next s.bits.length)).1
          entropy := s.entropy.advance s.bits.length } := by
  change execNoise p s = _
  rw [execNoise, if_neg hp.not_gt, if_pos ho]
  simp only [noiseLoop_count _ _ _ (s.entropy.next_length _), Entropy.countP_next]

end

/-- A bit of BITS after NOISE: inverted exactly when the draw in its place is below `p`. -/
theorem noiseLoop_next_getElem? {p i : Nat} {b : Bits} {x : Bool} (e : Entropy) (h : b[i]? = some x) :
    (noiseLoop p b (e.next b.length)).1[i]? = some (x ^^ decide ((e.draw i).toNat < p)) := by
  obtain ⟨hi, -⟩ := List.getElem?_eq_some_iff.1 h
  rw [noiseLoop_getElem? p b _ (e.next_getElem? hi), h, Option.map_some]

/-- Settles O34: the bits are those of the loop, of which the length and each bit are known. -/
theorem noiseInvertsByItsDraws : Obligations.NoiseInvertsByItsDraws := fun _ s hp ho =>
  ⟨_, noiseLoop_length _ _ _, fun _ _ hx => noiseLoop_next_getElem? s.entropy hx,
    (exec_noise_of_offered hp ho).trans (done_eq_okWith _ _)⟩

/-- Settles O35: P is tested before the source is asked. -/
theorem noiseRaisesOrWaits : Obligations.NoiseRaisesOrWaits := fun _ s =>
  ⟨fun hbig => (exec_noise_of_gt hbig).trans (fail_eq_errWith _ _ s),
    fun _ hp hl hlt => exec_noise_of_not_offered hp (Entropy.offers_eq_false hl hlt)⟩

/-! ## The end points -/

/-- Bits that each differ from `a` by the same `c`. -/
theorem eq_map_xor_of_getElem? {a b : Bits} {c : Bool} (hlen : b.length = a.length)
    (h : ∀ (i : Nat) (x : Bool), a[i]? = some x → b[i]? = some (x ^^ c)) : b = a.map (· ^^ c) := by
  refine List.ext_getElem? fun i => ?_
  rw [List.getElem?_map]
  cases ha : a[i]? with
  | none => exact List.getElem?_eq_none (hlen.trans_le (List.getElem?_eq_none_iff.1 ha))
  | some x => exact h i x ha

/-- Where every draw decides alike, NOISE does the same to every bit. -/
theorem exec_noise_of_draws_alike {p : Arg} {s : State} {c : Bool} (hp : p.toNat ≤ 0x10000)
    (ho : s.entropy.offers s.bits.length = true) (hc : ∀ r : Draw, decide (r.toNat < p.toNat) = c) :
    ∃ e, exec (.noise p) s =
      okWith (natWord ((List.range s.bits.length).countP fun _ => c))
        { s with bits := s.bits.map (· ^^ c), entropy := e } := by
  obtain ⟨b, hlen, hbit, he⟩ := noiseInvertsByItsDraws p s hp ho
  simp only [hc] at hbit he
  rw [eq_map_xor_of_getElem? hlen hbit] at he
  exact ⟨_, he⟩

/-- Settles O36: no draw is below 0, and every draw is below 0x10000, since a draw has 16 bits. -/
theorem noiseAtItsEndPoints : Obligations.NoiseAtItsEndPoints := by
  refine fun s ho => ⟨?_, ?_⟩
  · have hnone : ∀ r : Draw, decide (r.toNat < (0 : Arg).toNat) = false := fun r =>
      decide_eq_false (Nat.not_lt_zero _)
    simpa [natWord] using exec_noise_of_draws_alike (p := 0) (by decide) ho hnone
  · have hall : ∀ r : Draw, decide (r.toNat < (0x10000 : Arg).toNat) = true := fun r => decide_eq_true r.isLt
    simpa using exec_noise_of_draws_alike (p := 0x10000) (by decide) ho hall

end Sys2Proof.Machine
end

section
/-! The reads (spec 45_read.md R180 to R192): a read answers what stands at its index, or raises an error with its operand;
in both cases with the state as it was. -/

namespace Sys2Proof.Machine

open Sys2Proof.Claims

/-! ## The weight of the root -/

theorem State.root_eq_rootOf_node (s : State) : s.root = rootOf s.node := rfl

/-- Settles O27: a table that is not empty is a tree of its entries, whose root has the sum of their counts. -/
theorem rootWeightIsTotal : Obligations.RootWeightIsTotal := by
  intro s h hne
  have hb := inv_tableBuilt h hne
  rw [State.root_eq_rootOf_node, hb.node_eq]
  exact rootWeight hb.ndist_pos

/-! ## How a read ends -/

section
variable {e : Error} {info : Word} {s : State}

theorem answer_of_some {v : Option Word} {w : Word} (h : v = some w) : answer v e info s = okWith w s := by
  rw [h]
  exact done_eq_okWith w s

theorem answer_of_none {v : Option Word} (h : v = none) : answer v e info s = errWith e.code info s := by
  rw [h]
  exact fail_eq_errWith e info s

/-- A read of a sequence answers with the element at the index (20_memory.md R60). -/
theorem answer_of_element {α : Type} {l : List α} {f : α → Word} {i : Nat} {x : α} (h : l[i]? = some x) :
    answer (l[i]?.map f) e info s = okWith (f x) s :=
  answer_of_some (by rw [h, Option.map_some])

/-- A read beyond the end of a sequence is an error (20_memory.md R60). -/
theorem answer_of_beyond {α : Type} {l : List α} {f : α → Word} {i : Nat} (h : l.length ≤ i) :
    answer (l[i]?.map f) e info s = errWith e.code info s :=
  answer_of_none (by rw [List.getElem?_eq_none h, Option.map_none])

end

/-! ## The streams of bits -/

/-- A packed word has the first bit of its chunk in bit 31 (20_memory.md R61, R62). -/
theorem packedWord_getLsbD_sub (b : Bits) (j : Nat) {t : Nat} (h : t < 32) :
    (packedWord b j).getLsbD (31 - t) = b.getD (32 * j + t) false := by
  rw [packedWord_getLsbD, decide_eq_true (by omega), Bool.true_and, show 31 - (31 - t) = t by omega]

section
variable {j : Arg} {s : State}

theorem exec_rdBits_of_beyond (h : s.bits.length ≤ 32 * j.toNat) :
    exec (.rdBits j) s = fail .badIndex (argWord j) s :=
  if_pos h

theorem exec_rdBits_of_within (h : 32 * j.toNat < s.bits.length) :
    exec (.rdBits j) s = done (packedWord s.bits j.toNat) s :=
  if_neg h.not_ge

end

/-- Settles O41: the word answered is the packed one, of which each bit is known. -/
theorem readBitsPacksMostSignificantFirst : Obligations.ReadBitsPacksMostSignificantFirst := by
  refine fun j s => ⟨fun hbeyond => ?_, fun hwithin => ⟨packedWord s.bits j.toNat, ?_, fun t ht => ?_⟩⟩
  · exact (exec_rdBits_of_beyond hbeyond).trans (fail_eq_errWith _ _ s)
  · exact (exec_rdBits_of_within hwithin).trans (done_eq_okWith _ s)
  · exact packedWord_getLsbD_sub s.bits j.toNat ht

section
variable {s : State} {c : Bits}

theorem exec_rdClen_of_no_entry {k : Arg} (h : s.ft.length ≤ k.toNat) :
    exec (.rdClen k) s = fail .badIndex (argWord k) s :=
  if_pos h

theorem exec_rdClen_of_codeword {k : Arg} (hk : k.toNat < s.ft.length) (hc : s.code[k.toNat]? = some c) :
    exec (.rdClen k) s = done (natWord c.length) s := by
  refine (if_neg hk.not_ge).trans ?_
  rw [hc]

variable {k : BitVec 14} {j : BitVec 8}

theorem exec_rdCbits_of_no_entry (h : s.ft.length ≤ k.toNat) :
    exec (.rdCbits k j) s = fail .badIndex (argWord (cbitsArg k j)) s :=
  if_pos h

theorem exec_rdCbits_of_codeword (hk : k.toNat < s.ft.length) (hc : s.code[k.toNat]? = some c) :
    exec (.rdCbits k j) s =
      if c.length ≤ 32 * j.toNat then fail .badIndex (argWord (cbitsArg k j)) s
      else done (packedWord c j.toNat) s := by
  refine (if_neg hk.not_ge).trans ?_
  rw [hc]

end

/-- Settles O43: where the tables are equally long, the index of a codeword is the index of an entry. -/
theorem readCodewords : Obligations.ReadCodewords := by
  intro s hlen
  have hentry : ∀ {k : Nat} {c : Bits}, s.code[k]? = some c → k < s.ft.length := fun hc =>
    (List.getElem?_eq_some_iff.1 hc).1.trans_eq hlen
  refine ⟨fun k hk => ?_, fun k c hc => ?_, fun k j hk => ?_, fun k j c hc hbeyond => ?_, fun k j c hc hwithin =>
    ⟨packedWord c j.toNat, ?_, fun t ht => packedWord_getLsbD_sub c j.toNat ht⟩⟩
  · exact (exec_rdClen_of_no_entry hk).trans (fail_eq_errWith _ _ s)
  · exact (exec_rdClen_of_codeword (hentry hc) hc).trans (done_eq_okWith _ s)
  · exact (exec_rdCbits_of_no_entry hk).trans (fail_eq_errWith _ _ s)
  · rw [exec_rdCbits_of_codeword (hentry hc) hc, if_pos hbeyond]
    exact fail_eq_errWith _ _ s
  · rw [exec_rdCbits_of_codeword (hentry hc) hc, if_neg hwithin.not_ge]
    exact done_eq_okWith _ s

/-! ## The entry of a symbol -/

theorem symbolOf_eq_some_iff {a : Arg} {c : Symbol} : symbolOf a = some c ↔ c.val = a.toNat := by
  rw [symbolOf]
  split
  · rw [Option.some.injEq, Fin.ext_iff, eq_comm]
  · have := c.isLt
    simp only [reduceCtorEq, false_iff]
    omega

/-- Settles O44: the entry of a symbol is found where no symbol stands twice, and a value that is no symbol is not even
looked up. -/
theorem readEntryOfSymbol : Obligations.ReadEntryOfSymbol := by
  refine fun a s hnodup => ⟨fun k e he hval => answer_of_some ?_, fun hnone => answer_of_none ?_⟩
  · rw [symbolOf_eq_some_iff.2 hval, Option.bind_some, entryOf_of_getElem? hnodup he, Option.map_some]
  · rw [Option.map_eq_none_iff, Option.bind_eq_none_iff]
    refine fun c hc => entryOf_eq_none.2 fun hmem => ?_
    obtain ⟨e, he, rfl⟩ := List.mem_map.1 hmem
    exact hnone e he (symbolOf_eq_some_iff.1 hc)

/-! ## The registers -/

/-- The registers 0 to 15, in the order of the register map (10_state.md R33). -/
def registerMap (s : State) : List Word :=
  [0x48554631, s.status, s.errcode.setWidth 32, s.errinfo, natWord s.src.length, natWord s.bits.length,
    natWord s.dst.length, natWord s.ft.length, natWord s.node.length, natWord (s.node.length - 1),
    natWord (s.ft.map Entry.cnt).sum, natWord s.maxlen, natWord s.tail, natWord s.params.nSym,
    natWord s.params.srcCap, natWord s.params.bitCap]

theorem regValue_eq_getElem?_registerMap (s : State) (n : Nat) : regValue s n = (registerMap s)[n]? := by
  rcases Nat.lt_or_ge n 16 with hn | hn
  · interval_cases n <;> rfl
  · rw [(regValue_eq_none_iff s n).2 hn, List.getElem?_eq_none hn]

/-- Settles O38: RD.REG answers from the register map, which has no number from 16 on. -/
theorem readRegisterMap : Obligations.ReadRegisterMap := fun _ s =>
  ⟨fun hr => answer_of_none ((regValue_eq_none_iff s _).2 hr),
    fun _ hv => answer_of_some ((regValue_eq_getElem?_registerMap s _).trans hv)⟩

/-! ## The sequences

Each of these reads is an `answer` with an element of one sequence. -/

/-- Settles O40: RD.SRC and RD.DST read SRC and DST. -/
theorem readSymbolBuffers : Obligations.ReadSymbolBuffers := fun _ _ =>
  ⟨answer_of_beyond, fun _ => answer_of_element, answer_of_beyond, fun _ => answer_of_element⟩

/-- Settles O42: RD.FSYM and RD.FCNT read the two fields of one entry of FT. -/
theorem readFrequencyTable : Obligations.ReadFrequencyTable := fun _ _ =>
  ⟨fun hk => ⟨answer_of_beyond hk, answer_of_beyond hk⟩, fun _ he => ⟨answer_of_element he, answer_of_element he⟩⟩

/-- Settles O45: the four reads of a node take one word each from the same element of NODE. -/
theorem readTreeNodes : Obligations.ReadTreeNodes := fun _ _ =>
  ⟨fun hx => ⟨answer_of_beyond hx, answer_of_beyond hx, answer_of_beyond hx, answer_of_beyond hx⟩,
    fun _ _ hx => ⟨answer_of_element hx, answer_of_element hx, answer_of_element hx, answer_of_element hx⟩,
    fun _ _ _ hx => ⟨answer_of_element hx, answer_of_element hx, answer_of_element hx, answer_of_element hx⟩⟩

end Sys2Proof.Machine
end

section
/-! Errors (spec 60_exceptions.md R220, R221, R224): a response with an error code comes from error entry alone, of a
command with one of the errors it can raise or of an illegal word; and from a good state every step answers. -/

namespace Sys2Proof.Machine

open Sys2Proof.Claims

/-! ## A response with an error code -/

/-- A command that answers an error code from a ready state has raised one of its errors. -/
theorem raise_of_response_error {i : Instr} {s t : State} {r : Response} (hs : Ready s) (he : exec i s = .next t)
    (hr : t.pending = some r) (hc : r.code ≠ 0) :
    ∃ e info, e ∈ mayRaise i ∧ t = raise e info s ∧ r = { code := e.code, data := 0 } := by
  rcases exec_next he with ⟨v, u, rfl, -⟩ | ⟨e, info, hmay, rfl⟩ | ⟨p, -, -, rfl⟩
  · cases hr
    exact absurd rfl hc
  · cases hr
    exact ⟨e, info, hmay, rfl, rfl⟩
  · rw [hs.1] at hr
    cases hr

/-- No event of the host or the entropy source sets PENDING (10_state.md R37). -/
theorem takeInput_pending_none {s : State} (h : s.pending = none) : (takeInput s).pending = none := by
  unfold takeInput
  split
  -- Taking the response and reset empty PENDING; the other events keep it.
  case h_3 | h_4 => rfl
  case h_1 | h_2 | h_5 | h_6 => exact h

/-- A step that finds a word offered to a ready block, and answers an error code, has raised that error: an asserted
reset, which would come first, leaves no response. -/
theorem raise_of_step_response_error {s t : State} {w : Word} {rest : List Word} {r : Response} (hs : Ready s)
    (ho : s.offered = w :: rest) (hst : step s = .next t) (hr : t.pending = some r) (hc : r.code ≠ 0) :
    ∃ e info, t = raise e info { s with offered := rest } ∧ r = { code := e.code, data := 0 } := by
  cases hreset : s.resetAsserted with
  | true =>
    rw [step_of_stay (turn_reset hreset)] at hst
    cases hst
    rw [takeInput_pending_none hs.1] at hr
    cases hr
  | false =>
    cases hd : decode w with
    | ok i =>
      rw [stepRunsOfferedCommand s w rest i hs hreset ho hd] at hst
      obtain ⟨e, info, -, ht, hre⟩ := raise_of_response_error (s := { s with offered := rest }) hs hst hr hc
      exact ⟨e, info, ht, hre⟩
    | error e =>
      rw [step_of_stay ((turn_accept hreset hs.1 hs.2 ho).trans (acceptWord_of_refused hd _))] at hst
      cases hst
      cases hr
      exact ⟨.illegalCommand, w, rfl, rfl⟩

/-- Settles O48: an error code comes from `raise`, which writes the error record and PENDING with one code. -/
theorem failedCommandWritesOnlyErrorRecord : Obligations.FailedCommandWritesOnlyErrorRecord := by
  refine ⟨fun i s t r hs he hr hc => ?_, fun s t w rest r hs ho hst hr hc => ?_⟩
  · obtain ⟨e, info, -, rfl, rfl⟩ := raise_of_response_error hs he hr hc
    exact ⟨info, rfl⟩
  · obtain ⟨e, info, rfl, rfl⟩ := raise_of_step_response_error hs ho hst hr hc
    exact ⟨info, rfl⟩

/-- Settles O49: a code other than 0 is that of an error the command can raise. -/
theorem responseCodesOfCommands : Obligations.ResponseCodesOfCommands := by
  intro i s t r hs he hr
  by_cases hc : r.code = 0
  · exact .inl hc
  · obtain ⟨e, -, hmay, -, rfl⟩ := raise_of_response_error hs he hr hc
    exact .inr ⟨e, hmay, rfl⟩

/-! ## No stop -/

/-- A command stops only where the table lacks a codeword (log 5). -/
theorem exec_answers (i : Instr) {s : State} (h : s.ft.length ≤ s.code.length) : ∃ t, exec i s = .next t := by
  have hends := exec_ends i s
  generalize exec i s = o at hends ⊢
  cases hends with
  | succeeds | raises | waits => exact ⟨_, rfl⟩
  | stops hlt => exact absurd h hlt.not_ge

/-- Settles O55: an event and an illegal word always answer, and the table of a good state lacks no codeword. -/
theorem stepNeverStops : Obligations.StepNeverStops := by
  intro s h
  have hcode := (inv_code_length h).ge
  rcases turn_cases s with ht | ⟨p, -, ht⟩ | ⟨w, rest, -, ht⟩
  · exact ⟨_, step_of_stay ht⟩
  · exact step_of_run ht ▸ exec_answers (s := { s with waiting := none }) _ hcode
  · cases hd : decode w with
    | ok i =>
      rw [acceptWord, hd] at ht
      exact step_of_run ht ▸ exec_answers (s := { s with offered := rest }) i hcode
    | error e => exact ⟨_, step_of_stay (ht.trans (acceptWord_of_refused hd _))⟩

end Sys2Proof.Machine
end

section
/-! Reset and hazards (spec 70_reset_and_hazards.md R250, R251, R255, R259): an asserted reset is the whole step, a NOISE
whose draws are there goes on, and what a table encodes it decodes, whenever it was built. -/

namespace Sys2Proof.Machine

open Sys2Proof.Claims

/-! ## A NOISE that waits -/

/-- Settles O7: with the draws there, the turn is to run the NOISE. -/
theorem waitingNoiseGoesOn : Obligations.WaitingNoiseGoesOn := fun _ _ hr hw ho =>
  step_of_run (turn_go_on hr hw ho)

/-! ## The ports -/

/-- Under reset the block neither accepts a word, nor offers a response, nor asks for a draw (70_reset_and_hazards.md
R250). -/
theorem ports_of_resetAsserted {s : State} (h : s.resetAsserted = true) :
    s.cmdReady = false ∧ s.rspValid = false ∧ s.rndReady = false := by
  simp [State.cmdReady, State.rspValid, State.rndReady, h]

/-- A ready block accepts a word when reset is not asserted: the converse of `ready_of_cmdReady` (30_encoding.md R81). -/
theorem cmdReady_of_ready {s : State} (h : Ready s) (hr : s.resetAsserted = false) : s.cmdReady = true := by
  obtain ⟨hp, hw⟩ := h
  simp [State.cmdReady, hp, hw, hr]

/-! ## The entropy source over a reset -/

section
variable {e : Entropy} (n : Nat)

/-- An abandoned NOISE had taken what was offered, at most one draw for each bit (log 4). -/
theorem Entropy.abandon_of_left {m : Nat} (h : e.left = some m) :
    e.abandon n =
      { fixed := e.fixed.drop (min n m), taken := e.taken + min n m, left := some (m - min n m) } := by
  simp [Entropy.abandon, Entropy.lost, Entropy.advance, h]

/-- From a source that never stops an abandoned NOISE had taken a draw for each bit (log 4). -/
theorem Entropy.abandon_of_endless (h : e.left = none) :
    e.abandon n = { fixed := e.fixed.drop n, taken := e.taken + n, left := none } := by
  simp [Entropy.abandon, Entropy.lost, Entropy.advance, h]

end

section
variable {s : State}

theorem resetBlock_entropy_of_not_waiting (h : s.waiting = none) : (resetBlock s).entropy = s.entropy := by
  rw [resetBlock_entropy, h, Option.isSome_none, if_neg Bool.false_ne_true]

theorem resetBlock_entropy_of_waiting (h : s.waiting ≠ none) :
    (resetBlock s).entropy = s.entropy.abandon s.bits.length := by
  rw [resetBlock_entropy, if_pos (Option.isSome_iff_ne_none.2 h)]

end

/-! ## Reset -/

theorem step_of_reset {s : State} {rest : List Input} (h : s.inputs = .reset :: rest) :
    step s = .next (resetBlock { s with inputs := rest }) :=
  (step_of_stay (turn_reset (resetAsserted_iff.2 ⟨rest, h⟩))).trans (congrArg _ (takeInput_reset h))

/-- Settles O9: the step is `resetBlock`, which leaves a ready block, and abandons a NOISE where one waits. -/
theorem resetFromEveryState : Obligations.ResetFromEveryState := by
  intro s rest h
  obtain ⟨hcmd, hrsp, hrnd⟩ := ports_of_resetAsserted (resetAsserted_iff.2 ⟨rest, h⟩)
  refine ⟨hcmd, hrsp, hrnd, _, step_of_reset h, reset_components, rfl, rfl, rfl, rfl, cmdReady_of_ready ⟨rfl, rfl⟩,
    resetBlock_entropy_of_not_waiting, fun m hw hl => ?_, fun hw hl => ?_⟩
  · exact (resetBlock_entropy_of_waiting hw).trans (Entropy.abandon_of_left _ hl)
  · exact (resetBlock_entropy_of_waiting hw).trans (Entropy.abandon_of_endless _ hl)

/-! ## A table in force -/

/-- No codeword of a good state is empty. -/
theorem inv_codeword_ne_nil {s : State} (h : Inv s) : ∀ c ∈ s.code, c ≠ [] := fun _ hc =>
  List.length_pos_iff.1 (inv_codeword_bounds h hc).1

/-- Settles O33: the table of a good state is prefix-free, whichever SRC it was built from, so DECODE reads back what
ENCODE wrote with it. -/
theorem encodeThenDecodeWithOlderTable : Obligations.EncodeThenDecodeWithOlderTable := by
  intro s t u v h hencode hok hbits hft hcode
  obtain ⟨ws, hws, hflat, -, -⟩ := encode_success hencode hok
  rw [← hft, ← hcode] at hws
  have hdecode := exec_decode_of_codewords (hcode ▸ inv_prefixFree h) (hcode ▸ inv_codeword_ne_nil h) hws
    (hbits.trans hflat)
  exact ⟨_, hdecode, rfl, rfl⟩

end Sys2Proof.Machine
end
